-- ==== Sys2Proof/Word.lean ====
section
/-! DEFINITION. The word types of the core: every value is a 32-bit unsigned word or an 8-bit byte
(spec/00_scope.md R10, R18). -/

namespace Sys2Proof

/-- A 32-bit register value: `R`, a table entry, a CRC, an FCS (R8, R21). -/
abbrev Word := BitVec 32

/-- A byte of a frame, and the index of a table entry (R8, R30). -/
abbrev Byte := BitVec 8

end Sys2Proof
end

