-- ==== Sys2Proof/Syntax.lean ====
section
/-! DEFINITION. The words the core accepts, one constructor per row of spec/opcode_table.json: eight
commands on the command port and four beats on the data port (spec/00_scope.md R3, spec/30_encoding.md
R77, R78). -/

namespace Sys2Proof

/-- An instruction of the core. A command carries its `rxfcs` field whatever its op, because RXFCS is
latched from it whatever the op (spec/10_state.md R26). `endBeat` and `nullBeat` carry the data bits
that the core ignores (R79), so that an encoding loses no bit (log 15). -/
inductive Instr where
  /-- CRC.T: compute_crc, table strategy (R139). -/
  | crcT (rxfcs : Word)
  /-- CRC.D: compute_crc, direct strategy (R140). -/
  | crcD (rxfcs : Word)
  /-- FCS.T: compute_fcs, table strategy (R161). -/
  | fcsT (rxfcs : Word)
  /-- FCS.D: compute_fcs, direct strategy (R162). -/
  | fcsD (rxfcs : Word)
  /-- VAL.T f: validate_frame, table strategy (R164). -/
  | valT (rxfcs : Word)
  /-- VAL.D f: validate_frame, direct strategy (R165). -/
  | valD (rxfcs : Word)
  /-- RSV.T: the reserved op with ut = 1 (R166). -/
  | rsvT (rxfcs : Word)
  /-- RSV.D: the reserved op with ut = 0 (R166). -/
  | rsvD (rxfcs : Word)
  /-- BYTE b: a byte, the frame goes on (R128). -/
  | byte (data : Byte)
  /-- LAST b: a byte, the frame ends (R129). -/
  | last (data : Byte)
  /-- END: the frame ends with no byte; `data` is ignored (R130). -/
  | endBeat (data : Byte)
  /-- NULL: a filler beat; `data` is ignored (R131). -/
  | nullBeat (data : Byte)
  deriving DecidableEq, Repr

end Sys2Proof
end

