-- ==== Sys2Proof/WellFormed.lean ====
section
/-! DEFINITION. Which raw port words are words at all. The channel a word arrives on gives its format,
and each format has one fixed length (spec/30_encoding.md R80); every word of that length decodes
(R79), so every `Instr` is well formed and the only ill-formed input is a number with bits beyond its
port's width. -/

namespace Sys2Proof

/-- The two channels that carry instructions: the command port and the data port (R70). -/
inductive Channel where
  /-- `cmd_word`, format CMD. -/
  | cmd
  /-- `in_beat`, format BEAT. -/
  | data
  deriving DecidableEq, Repr

/-- The port's width: 35 bits for CMD (R72), 10 bits for BEAT (R73). -/
def Channel.width : Channel → Nat
  | .cmd => 35
  | .data => 10

/-- A raw word, numbered as spec/opcode_table.json numbers it: bit 0 is the least significant bit. -/
structure PortWord where
  channel : Channel
  bits : Nat
  deriving DecidableEq, Repr

/-- The word has no bit beyond its port's width. -/
def PortWord.wellFormed (p : PortWord) : Bool := decide (p.bits < 2 ^ p.channel.width)

/-- Every instruction is well formed: no field value is illegal (R79), and the fields' types hold
exactly the values their widths admit. -/
def Instr.wellFormed (i : Instr) : Bool :=
  match i with
  | .crcT _ => true
  | .crcD _ => true
  | .fcsT _ => true
  | .fcsD _ => true
  | .valT _ => true
  | .valD _ => true
  | .rsvT _ => true
  | .rsvD _ => true
  | .byte _ => true
  | .last _ => true
  | .endBeat _ => true
  | .nullBeat _ => true

end Sys2Proof
end

