-- ==== Sys2Proof/Decode.lean ====
section
/-! DEFINITION. The decoder of the two port formats, total, and after it the encoder, both from the
field tables of spec/30_encoding.md R72, R73 and the opcode maps R77, R78. -/

namespace Sys2Proof

/-- `cmd_word[34:3]`, the received FCS (R72). -/
def cmdRxfcs (w : BitVec 35) : Word := w.extractLsb' 3 32

/-- `in_beat[7:0]`, the data byte (R73). -/
def beatData (w : BitVec 10) : Byte := w.extractLsb' 0 8

/-- Command decode by `cmd_word[2:0]`, read as `ut` (bit 2) and `op` (bits 1 and 0) (R77). Bits 34:3
never take part in selecting the command. -/
def decodeCmd (w : BitVec 35) : Instr :=
  match w.getLsbD 2, w.getLsbD 1, w.getLsbD 0 with
  | true, false, false => .crcT (cmdRxfcs w)
  | false, false, false => .crcD (cmdRxfcs w)
  | true, false, true => .fcsT (cmdRxfcs w)
  | false, false, true => .fcsD (cmdRxfcs w)
  | true, true, false => .valT (cmdRxfcs w)
  | false, true, false => .valD (cmdRxfcs w)
  | true, true, true => .rsvT (cmdRxfcs w)
  | false, true, true => .rsvD (cmdRxfcs w)

/-- Beat decode by `in_beat[9:8]`, `{last, keep}` (R78). -/
def decodeBeat (w : BitVec 10) : Instr :=
  match w.getLsbD 9, w.getLsbD 8 with
  | false, true => .byte (beatData w)
  | true, true => .last (beatData w)
  | true, false => .endBeat (beatData w)
  | false, false => .nullBeat (beatData w)

/-- Why a raw word is no word of its port. -/
inductive DecodeError where
  /-- The number has a bit beyond bit 34, which `cmd_word` does not have. -/
  | widerThanCommandWord
  /-- The number has a bit beyond bit 9, which `in_beat` does not have. -/
  | widerThanBeat
  deriving DecidableEq, Repr

/-- The decoder of a raw word: every word that fits its port decodes (R79); any other is rejected by
name. -/
def decode (p : PortWord) : Except DecodeError Instr :=
  match p.channel with
  | .cmd =>
    if p.wellFormed then .ok (decodeCmd (BitVec.ofNat 35 p.bits)) else .error .widerThanCommandWord
  | .data =>
    if p.wellFormed then .ok (decodeBeat (BitVec.ofNat 10 p.bits)) else .error .widerThanBeat

/-- `{rxfcs[31:0], ut, op[1:0]}` (R72). -/
def packCmd (rxfcs : Word) (ut : Bool) (op : BitVec 2) : BitVec 35 := rxfcs ++ BitVec.ofBool ut ++ op

/-- `{last, keep, data[7:0]}` (R73). -/
def packBeat (last keep : Bool) (data : Byte) : BitVec 10 :=
  BitVec.ofBool last ++ BitVec.ofBool keep ++ data

/-- What an instruction is on its port. -/
inductive PortBits where
  | cmd (w : BitVec 35)
  | beat (w : BitVec 10)
  deriving DecidableEq, Repr

/-- The word that stands for an instruction on its port (R77, R78). -/
def encodeBits (i : Instr) : PortBits :=
  match i with
  | .crcT f => .cmd (packCmd f true 0b00#2)
  | .crcD f => .cmd (packCmd f false 0b00#2)
  | .fcsT f => .cmd (packCmd f true 0b01#2)
  | .fcsD f => .cmd (packCmd f false 0b01#2)
  | .valT f => .cmd (packCmd f true 0b10#2)
  | .valD f => .cmd (packCmd f false 0b10#2)
  | .rsvT f => .cmd (packCmd f true 0b11#2)
  | .rsvD f => .cmd (packCmd f false 0b11#2)
  | .byte b => .beat (packBeat false true b)
  | .last b => .beat (packBeat true true b)
  | .endBeat b => .beat (packBeat true false b)
  | .nullBeat b => .beat (packBeat false false b)

/-- The encoder: an instruction as a raw word of its channel. -/
def encode (i : Instr) : PortWord :=
  match encodeBits i with
  | .cmd w => ⟨.cmd, w.toNat⟩
  | .beat w => ⟨.data, w.toNat⟩

/-- A row of spec/opcode_table.json: the words `w` of the channel with `w &&& mask = pattern`. -/
structure OpcodeRow where
  mnemonic : String
  channel : Channel
  mask : Nat
  pattern : Nat
  deriving DecidableEq, Repr

/-- spec/opcode_table.json, row by row. -/
def opcodeTable : List OpcodeRow :=
  [⟨"CRC.T", .cmd, 0x7, 0x4⟩, ⟨"CRC.D", .cmd, 0x7, 0x0⟩,
   ⟨"FCS.T", .cmd, 0x7, 0x5⟩, ⟨"FCS.D", .cmd, 0x7, 0x1⟩,
   ⟨"VAL.T", .cmd, 0x7, 0x6⟩, ⟨"VAL.D", .cmd, 0x7, 0x2⟩,
   ⟨"RSV.T", .cmd, 0x7, 0x7⟩, ⟨"RSV.D", .cmd, 0x7, 0x3⟩,
   ⟨"BYTE", .data, 0x300, 0x100⟩, ⟨"LAST", .data, 0x300, 0x300⟩,
   ⟨"END", .data, 0x300, 0x200⟩, ⟨"NULL", .data, 0x300, 0x000⟩]

/-- The word is one of the row's. -/
def OpcodeRow.covers (r : OpcodeRow) (p : PortWord) : Bool :=
  r.channel == p.channel && p.bits &&& r.mask == r.pattern

/-- The instruction's mnemonic in spec/opcode_table.json. -/
def Instr.mnemonic (i : Instr) : String :=
  match i with
  | .crcT _ => "CRC.T"
  | .crcD _ => "CRC.D"
  | .fcsT _ => "FCS.T"
  | .fcsD _ => "FCS.D"
  | .valT _ => "VAL.T"
  | .valD _ => "VAL.D"
  | .rsvT _ => "RSV.T"
  | .rsvD _ => "RSV.D"
  | .byte _ => "BYTE"
  | .last _ => "LAST"
  | .endBeat _ => "END"
  | .nullBeat _ => "NULL"

/-- The channel of a table word of `nbits` bits: a beat is 10 bits, so it takes two bytes; a command
word is 35 bits, so it takes five, and one byte already holds the bits that select it (log 14). -/
def tableChannel (nbits : Nat) : Channel := if 8 < nbits ∧ nbits ≤ 16 then .data else .cmd

/-- The instruction the decoder reads from a word of spec/opcode_table.json. -/
def decodeTableWord (nbits w : Nat) : Option Instr :=
  match decode ⟨tableChannel nbits, w⟩ with
  | .ok i => some i
  | .error _ => none

end Sys2Proof
end

