-- ==== Sys2Proof/Config.lean ====
section
/-! DEFINITION. What is fixed for the machine: the hardwired constants (spec/10_state.md R20), the
reference values of the realisation's parameters (spec/00_scope.md R9), and the free values
(spec/93_implementation_defined.md U1 to U3), each an opaque constant with no body. -/

namespace Sys2Proof.Config

/-- POLY, the generator polynomial (R8, R20). -/
def poly : Word := 0x04C11DB7

/-- INIT, the register before the first byte (R8, R20). -/
def init : Word := 0xFFFFFFFF

/-- XOROUT, applied once at the end of a frame (R8, R20). -/
def xorOut : Word := 0xFFFFFFFF

/-- The FCS complement constant (R20, R160). -/
def fcsXor : Word := 0xFFFFFFFF

/-- The reference value of GEN_LATENCY (R9, R104). DESIGN CHOICE, unsafe for cycle counts: `State.reset` takes the
reference realisation; every meaning reads the state's own `latency` instead (log 5). -/
def genLatency : Nat := 256

/-- SERIAL_CYCLES_PER_BYTE of the reference design (R9, D17): one accept edge and seven shift edges. -/
def serialCyclesPerByte : Nat := 8

/-- TABLE_CYCLES_PER_BYTE of the reference design (R9, D18). -/
def tableCyclesPerByte : Nat := 1

/-- FREE VALUE (U1, R31, D24): what table entry `i` holds in the cycle after the edge numbered `draw`, while
the table is not ready. No body, so nothing about it can be proved (log 7). -/
opaque freeTblEntry (draw : Nat) (i : Byte) : Word

/-- FREE VALUE (U2, R64, R107): `tbl_rd_data` at index `i` in the cycle numbered `draw`, while the
table is not ready or `rst = 1` (log 8). -/
opaque freeTblRdData (draw : Nat) (i : Byte) : Word

/-- FREE VALUE (U3, R200): `res_word` in the cycle numbered `draw`, while `rst = 1` (log 9). -/
opaque freeResWord (draw : Nat) : BitVec 68

end Sys2Proof.Config
end

