-- ==== Sys2Proof/Machine/Operands.lean ====
section
/-! DEFINITION. Operand assembly (spec/30_encoding.md R76, spec/20_memory.md R52, R55): how a byte meets
the register on each path. No other operand form exists: no field is sign-extended, scaled or
assembled from split bits. -/

namespace Sys2Proof.Machine

/-- `zext_32(b) << 24`, which puts `b[7]` at bit 31 (R76, R52). -/
def byteAtTop (b : Byte) : Word := b.setWidth 32 <<< 24

/-- `R[31:24] ^ b`, the table index (R55, R76). -/
def tableIndex (r : Word) (b : Byte) : Byte := r.extractLsb' 24 8 ^^^ b

/-- The order in which a host lays an FCS out as four bytes of a frame: FCS_WIRE_ORDER, a parameter
of the host that the core does not depend on (spec/92_eei_decisions.md D22, spec/20_memory.md R54). -/
inductive WireOrder where
  | msbFirst
  | lsbFirst
  deriving DecidableEq, Repr

/-- The four bytes of `f`, `f[31:24]` first or `f[7:0]` first (spec/42_fcs_validator.md R171). -/
def fcsBytes (o : WireOrder) (f : Word) : List Byte :=
  match o with
  | .msbFirst => [f.extractLsb' 24 8, f.extractLsb' 16 8, f.extractLsb' 8 8, f.extractLsb' 0 8]
  | .lsbFirst => [f.extractLsb' 0 8, f.extractLsb' 8 8, f.extractLsb' 16 8, f.extractLsb' 24 8]

/-- The 32-bit received FCS a host builds from four trailing bytes of a frame (R54). -/
def fcsOfBytes (o : WireOrder) (b0 b1 b2 b3 : Byte) : Word :=
  match o with
  | .msbFirst => b0 ++ b1 ++ b2 ++ b3
  | .lsbFirst => b3 ++ b2 ++ b1 ++ b0

end Sys2Proof.Machine
end

