-- ==== Sys2Proof/Machine/Arith.lean ====
section
/-! DEFINITION. The arithmetic taken from the source: the polynomial step and the table entry
(spec/40_table_gen.md R100, R101), the byte updates of the two strategies (spec/41_crc_engine.md R123,
R124) and of the feedback form (R136), the frame fold (R122), and the FCS (spec/42_fcs_validator.md
R160). -/

namespace Sys2Proof.Machine

/-- STEP (R100): the MSB is tested before the shift; the XOR comes after it. The shift of a 32-bit
word keeps bits 31..0, which is `mask32` (R11). -/
def polyStep (r : Word) : Word := if r.getLsbD 31 then (r <<< 1) ^^^ Config.poly else r <<< 1

/-- `STEP^n` (R11, R100). -/
def polySteps (n : Nat) (r : Word) : Word :=
  match n with
  | 0 => r
  | k + 1 => polyStep (polySteps k r)

/-- TGEN, the value of table entry `i` (R101; the register starts at `i << 24`, 90_conflicts.md C5). -/
def tgen (i : Byte) : Word := polySteps 8 (byteAtTop i)

/-- TBL, the file of 256 entries of 32 bits (spec/10_state.md R30). Its 256 places are its whole
address space, and every index is valid (spec/20_memory.md R50). -/
abbrev Table := Vector Word 256

/-- `TBL[i]`, which is `MemRead(i, 4)` (R50). -/
def Table.read (t : Table) (i : Byte) : Word := t[i.toNat]'i.isLt

/-- A table by its entries. -/
def Table.ofEntries (f : Byte → Word) : Table := Vector.ofFn fun i => f (BitVec.ofNat 8 i.val)

/-- The generator's writes `TBL[i] <- TGEN(i)` for every `i` with `lo ≤ i < hi` (R102). -/
def Table.generate (t : Table) (lo hi : Nat) : Table :=
  Table.ofEntries fun i => if lo ≤ i.toNat ∧ i.toNat < hi then tgen i else t.read i

/-- The complete table, and the ROM's content (R103, R104). -/
def Table.generated : Table := Table.ofEntries tgen

/-- UPD_D, the direct byte update (R123). -/
def updD (r : Word) (b : Byte) : Word := polySteps 8 (r ^^^ byteAtTop b)

/-- UPD_T, the table-driven byte update (R124). It reads the table and never the direct path
(spec/40_table_gen.md R106). -/
def updT (t : Table) (r : Word) (b : Byte) : Word := (r <<< 8) ^^^ t.read (tableIndex r b)

/-- One step of the input-bit feedback form with input bit `d` (R136). -/
def feedbackStep (r : Word) (d : Bool) : Word :=
  if r.getLsbD 31 ^^ d then (r <<< 1) ^^^ Config.poly else r <<< 1

/-- The byte update of the feedback form, bits 7 down to 0 (R136): an allowed realisation of the
direct path (log 11). -/
def updFeedback (r : Word) (b : Byte) : Word :=
  [7, 6, 5, 4, 3, 2, 1, 0].foldl (fun acc j => feedbackStep acc (b.getLsbD j)) r

/-- REG_D, the fold of the direct update over a frame (R122). -/
def regD (d : List Byte) : Word := d.foldl updD Config.init

/-- REG_T, the fold of the table-driven update over a frame (R122). -/
def regT (t : Table) (d : List Byte) : Word := d.foldl (updT t) Config.init

/-- The CRC value of a final register (R122, R132). -/
def crcOf (r : Word) : Word := r ^^^ Config.xorOut

/-- FCS of a CRC value, its complement (R160). -/
def fcsOf (crc : Word) : Word := crc ^^^ Config.fcsXor

end Sys2Proof.Machine
end

