-- ==== Sys2Proof/Machine/State.lean ====
section
/-! DEFINITION. The state as plain data: everything spec/10_state.md gives the core, the input ports of
spec/30_encoding.md R70, and the model's own fields for the host's inputs and the free values. It is
grouped by the three agents of spec/00_scope.md R13: the engine, the table generator, the host. -/

namespace Sys2Proof.Machine

open Sys2Proof

/-- The op of a command (spec/10_state.md R25, spec/30_encoding.md R72). -/
inductive Op where
  | crc
  | fcs
  | val
  /-- The reserved op 0b11 (R79, R166). -/
  | rsv
  deriving DecidableEq, Repr

/-- The op's code on `cmd_word[1:0]` and `res_word[1:0]` (R72, R74). -/
def Op.bits : Op → BitVec 2
  | .crc => 0b00
  | .fcs => 0b01
  | .val => 0b10
  | .rsv => 0b11

/-- The engine's sequencing state (R23). -/
inductive Fsm where
  | idle
  | frame
  | shift
  | done
  deriving DecidableEq, Repr

/-- The state's code (R23); only the names and the transitions are observable (log 19). -/
def Fsm.bits : Fsm → BitVec 2
  | .idle => 0
  | .frame => 1
  | .shift => 2
  | .done => 3

/-- CMD, the latched command register (R25). -/
structure Cmd where
  op : Op
  ut : Bool
  deriving DecidableEq, Repr

/-- RES, the result register (R29). -/
structure Res where
  op : Op
  err : Bool
  ok : Bool
  crc : Word
  fcs : Word
  deriving DecidableEq, Repr

/-- The engine and the validator: the registers written by spec/41_crc_engine.md. -/
structure Engine where
  /-- `R`, the CRC register (R21). -/
  r : Word
  /-- `fsm` (R23). -/
  fsm : Fsm
  /-- `CMD` (R25). -/
  cmd : Cmd
  /-- `RXFCS`, the received FCS (R26). -/
  rxfcs : Word
  /-- `cnt`, the bit-steps still to do for the current byte (R27). -/
  cnt : BitVec 3
  /-- `plast`: the byte being shifted was the frame's final byte (R27). -/
  plast : Bool
  /-- `RES` (R29). -/
  res : Res
  /-- `res_valid` (R24). -/
  resValid : Bool
  deriving DecidableEq, Repr

/-- The table generator and the table. -/
structure Gen where
  /-- `gidx`, the index of the next entry to generate, 0 to 256 (R28). -/
  gidx : BitVec 9
  /-- `tbl_ready` (R24, R28). -/
  tblReady : Bool
  /-- `TBL` (R30). -/
  tbl : Table
  /-- The MODEL'S OWN: the entries the generator has written so far (R102). `TBL` takes them over at the edge
  that makes the table ready; until then its own contents are open (R31; log 7). -/
  fill : Table
  /-- `GEN_LATENCY`, the realisation's parameter, which no step changes (R104, log 5). -/
  latency : Nat
  /-- The MODEL'S OWN: the generator's progress towards its next entry, in 256ths of `latency`; always 0
  in the reference realisation (log 6). -/
  phase : Nat
  deriving DecidableEq, Repr

/-- The input ports in the current cycle (R70); `clk` is the step itself. -/
structure Pins where
  rst : Bool
  cmdValid : Bool
  cmdWord : BitVec 35
  inValid : Bool
  inBeat : BitVec 10
  resReady : Bool
  tblRdAddr : Byte
  deriving DecidableEq, Repr

/-- The host's side (R13, R14). -/
structure HostSide where
  /-- The input ports in this cycle. -/
  pins : Pins
  /-- The MODEL'S OWN: the input ports in the coming cycles (log 2). -/
  queue : List Pins
  /-- The MODEL'S OWN: the command word that was offered at the last edge and not accepted; the host
  owes it again (R210, log 4). -/
  heldCmd : Option (BitVec 35)
  /-- The MODEL'S OWN: the same for the data port (R210, log 4). -/
  heldBeat : Option (BitVec 10)
  deriving DecidableEq, Repr

/-- The whole machine. -/
structure State where
  /-- The engine and the validator. -/
  eng : Engine
  /-- The table generator and the table. -/
  gen : Gen
  /-- The host's inputs. -/
  host : HostSide
  /-- The MODEL'S OWN: how many draws of free values have been made (D24, log 7). -/
  draws : Nat
  deriving DecidableEq, Repr

/-- The core has no fault: no exception, no trap, no error state (spec/60_exceptions.md R180). So no
step raises one, and this type has no constructor; nothing is left out by it (safe; log 18). -/
inductive Fault where
  deriving DecidableEq, Repr

/-- Why a step has no meaning. -/
inductive Refusal where
  /-- An instruction that the model gives no meaning. Nobody raises it: every instruction has one. -/
  | notModelled (mnemonic : String)
  /-- Raised by the clock edge when the host dropped or changed a command word that it had offered and
  the core had not accepted (R182, R210; U7: refuse). Safe: the spec gives the breach no meaning. -/
  | commandOfferBroken
  /-- The same for a beat on the data port (R182, R210; U7). Safe. -/
  | beatOfferBroken
  deriving DecidableEq, Repr

/-- The engine's reset values (R34). -/
def Engine.reset : Engine where
  r := Config.init
  fsm := .idle
  cmd := ⟨.crc, false⟩
  rxfcs := 0
  cnt := 0
  plast := false
  res := ⟨.crc, false, false, 0, 0⟩
  resValid := false

/-- A table whose every entry is a free value of the draw given (R31; log 7). -/
def Table.free (draw : Nat) : Table := Table.ofEntries (Config.freeTblEntry draw)

/-- The generator's reset values for a realisation with the given latency (R34, R200). The table holds
free values of the draw given, or the ROM's content if the latency is 0 (R31, R104). -/
def Gen.reset (latency draw : Nat) : Gen where
  gidx := 0
  tblReady := latency == 0
  tbl := if latency = 0 then Table.generated else Table.free draw
  fill := if latency = 0 then Table.generated else Table.free draw
  latency := latency
  phase := 0

/-- Input ports on which the host offers nothing. DESIGN CHOICE, unsafe: the spec gives the ports no
value at reset (log 3). -/
def Pins.quiet : Pins where
  rst := false
  cmdValid := false
  cmdWord := 0
  inValid := false
  inBeat := 0
  resReady := false
  tblRdAddr := 0

/-- The host at reset: nothing offered, nothing planned (log 2, log 3). -/
def HostSide.reset : HostSide := ⟨Pins.quiet, [], none, none⟩

/-- The state right after the reset edge (R34) of a realisation with the given latency. The table used
draw 0, so the next draw is 1. -/
def State.resetWith (latency : Nat) : State :=
  ⟨Engine.reset, Gen.reset latency 0, HostSide.reset, 1⟩

/-- The state right after the reset edge of the reference realisation (R34, R104). -/
def State.reset : State := State.resetWith Config.genLatency

/-- Only the engine changes. -/
def State.setEng (s : State) (e : Engine) : State := { s with eng := e }

/-- Only the generator and the table change. -/
def State.setGen (s : State) (g : Gen) : State := { s with gen := g }

/-- Only the host's side changes. -/
def State.setHost (s : State) (h : HostSide) : State := { s with host := h }

/-- Only the input ports of this cycle change. -/
def State.setPins (s : State) (p : Pins) : State := { s with host := { s.host with pins := p } }

end Sys2Proof.Machine
end

