-- ==== Sys2Proof/Machine/Flags.lean ====
section
/-! DEFINITION. The flags of the result register (spec/10_state.md R24): the validation verdict and the
reserved-op indication. The core has no condition codes and no arithmetic flags. -/

namespace Sys2Proof.Machine

/-- The validation compare `fcs == RXFCS`, an exact 32-bit equality (spec/42_fcs_validator.md R163). -/
def fcsMatches (fcs rxfcs : Word) : Bool := fcs == rxfcs

/-- `RES.ok`: the verdict for VAL, 0 for every other op (R29, R132). -/
def okFlag (op : Op) (fcs rxfcs : Word) : Bool :=
  match op with
  | .crc => false
  | .fcs => false
  | .val => fcsMatches fcs rxfcs
  | .rsv => false

/-- `RES.err`: 1 only for the reserved op (R29, R166). -/
def errFlag (op : Op) : Bool :=
  match op with
  | .crc => false
  | .fcs => false
  | .val => false
  | .rsv => true

end Sys2Proof.Machine
end

