-- ==== Sys2Proof/Machine/Ports.lean ====
section
/-! DEFINITION. The output ports as functions of the state and of `rst` (spec/10_state.md R32), and the
transfer rule of the three channels (spec/30_encoding.md R71). While `rst = 1` the handshake and status
outputs are 0 and the two data outputs are free (spec/70_reset_and_hazards.md R200, 90_conflicts.md C6). -/

namespace Sys2Proof.Machine

/-- `cmd_ready = tbl_ready & (fsm == IDLE)` (R32). -/
def State.cmdReady (s : State) : Bool := !s.host.pins.rst && (s.gen.tblReady && s.eng.fsm == .idle)

/-- `in_ready = (fsm == FRAME)` (R32). -/
def State.inReady (s : State) : Bool := !s.host.pins.rst && s.eng.fsm == .frame

/-- `res_valid` on its port (R32). -/
def State.resValidOut (s : State) : Bool := !s.host.pins.rst && s.eng.resValid

/-- `busy = (fsm != IDLE)` (R32). -/
def State.busy (s : State) : Bool := !s.host.pins.rst && s.eng.fsm != .idle

/-- `tbl_ready` on its port (R32). -/
def State.tblReadyOut (s : State) : Bool := !s.host.pins.rst && s.gen.tblReady

/-- `{fcs[31:0], crc[31:0], ok, err, op[1:0]}` (R74). -/
def Res.pack (r : Res) : BitVec 68 :=
  r.fcs ++ r.crc ++ BitVec.ofBool r.ok ++ BitVec.ofBool r.err ++ r.op.bits

/-- `res_word`: the result register; free while `rst = 1` (R32, R200; log 9). -/
def State.resWord (s : State) : BitVec 68 :=
  if s.host.pins.rst then Config.freeResWord s.draws else s.eng.res.pack

/-- `tbl_rd_data`, the debug read: the entry at `tbl_rd_addr` once the table is ready, free before
that and in reset (spec/40_table_gen.md R107; log 8). -/
def State.tblRdData (s : State) : Word :=
  if s.tblReadyOut then s.gen.tbl.read s.host.pins.tblRdAddr
  else Config.freeTblRdData s.draws s.host.pins.tblRdAddr

/-- `accept(cmd)` (R71). -/
def State.acceptCmd (s : State) : Bool := s.host.pins.cmdValid && s.cmdReady

/-- `accept(in)` (R71). -/
def State.acceptIn (s : State) : Bool := s.host.pins.inValid && s.inReady

/-- `accept(res)` (R71). -/
def State.acceptRes (s : State) : Bool := s.resValidOut && s.host.pins.resReady

end Sys2Proof.Machine
end

