-- ==== Sys2Proof/Machine/Ops.lean ====
section
/-! DEFINITION. The named operations on the engine that the meanings share (spec/41_crc_engine.md R120 to
R133), and the two ways an instruction meets its channel: accepted, or left waiting. The core takes no
exception and returns from none (spec/60_exceptions.md R180, R186, R187), so there is no such operation:
the one error report is the reserved op's result, written by `Engine.finalize` (R166). -/

namespace Sys2Proof.Machine

open Sys2Proof

/-- Command accept (R120). `RES` and `res_valid` are not changed. -/
def Engine.accept (e : Engine) (op : Op) (ut : Bool) (rxfcs : Word) : Engine :=
  { e with cmd := ⟨op, ut⟩, rxfcs := rxfcs, r := Config.init, cnt := 0, plast := false, fsm := .frame }

/-- The result of a transaction of the given op whose register ends as `rn` (R132; the reserved op's
fixed result, R166). -/
def resultOf (op : Op) (rxfcs rn : Word) : Res :=
  match op with
  | .rsv => ⟨.rsv, errFlag .rsv, okFlag .rsv 0 rxfcs, 0, 0⟩
  | op => ⟨op, errFlag op, okFlag op (fcsOf (crcOf rn)) rxfcs, crcOf rn, fcsOf (crcOf rn)⟩

/-- `FINALIZE(Rn)` (R132): all `RES` fields change at this one edge. -/
def Engine.finalize (e : Engine) (rn : Word) : Engine :=
  { e with res := resultOf e.cmd.op e.rxfcs rn, resValid := true, fsm := .done }

/-- The table path's byte update (R124), and `FINALIZE` if the beat is the last (R129). -/
def Engine.tableByte (e : Engine) (t : Table) (b : Byte) (last : Bool) : Engine :=
  let e' := { e with r := updT t e.r b }
  if last then e'.finalize e'.r else e'

/-- The direct path's accept cycle: the XOR and the first of the eight steps (R125). -/
def Engine.directByte (e : Engine) (b : Byte) (last : Bool) : Engine :=
  { e with r := polyStep (e.r ^^^ byteAtTop b), cnt := 7, plast := last, fsm := .shift }

/-- The reserved op takes a byte beat with no change of `R` (R128, R129, R166). -/
def Engine.reservedByte (e : Engine) (last : Bool) : Engine :=
  if last then e.finalize e.r else e

/-- A beat with `keep = 1`, by the latched command (R128, R129). -/
def Engine.takeByte (e : Engine) (t : Table) (b : Byte) (last : Bool) : Engine :=
  if e.cmd.op = .rsv then e.reservedByte last
  else if e.cmd.ut then e.tableByte t b last
  else e.directByte b last

/-- A beat with `keep = 0`: END finalises with `R` unchanged (R130), NULL changes nothing (R131). -/
def Engine.takeNoByte (e : Engine) (last : Bool) : Engine :=
  if last then e.finalize e.r else e

/-- The direct path's shift cycle (R126). The `else` branch of the rule is the one with `cnt == 1`;
`cnt = 0` does not occur in SHIFT and takes it too (log 20). -/
def Engine.shiftStep (e : Engine) : Engine :=
  let e' := { e with r := polyStep e.r }
  if 1 < e.cnt then { e' with cnt := e.cnt - 1 }
  else if e.plast then { e' with cnt := 0, plast := false }.finalize e'.r
  else { e' with cnt := 0, fsm := .frame }

/-- Result accept: `RES` keeps its value (R133). -/
def Engine.takeResult (e : Engine) : Engine := { e with resValid := false, fsm := .idle }

/-- A command word on the command port: accepted if `cmd_ready` (R120); otherwise it waits, with no
effect (R204 to R206). -/
def State.offerCommand (s : State) (op : Op) (ut : Bool) (rxfcs : Word) : State :=
  if s.cmdReady then s.setEng (s.eng.accept op ut rxfcs) else s

/-- A byte beat on the data port: taken if `in_ready` (R121); otherwise it waits (R207, R208). -/
def State.offerByte (s : State) (b : Byte) (last : Bool) : State :=
  if s.inReady then s.setEng (s.eng.takeByte s.gen.tbl b last) else s

/-- A beat without a byte on the data port: taken if `in_ready`, otherwise it waits. -/
def State.offerNoByte (s : State) (last : Bool) : State :=
  if s.inReady then s.setEng (s.eng.takeNoByte last) else s

end Sys2Proof.Machine
end

