-- ==== Sys2Proof/Machine/Beats.lean ====
section
/-! DEFINITION. The meanings of the four beats (spec/41_crc_engine.md R128 to R131): what a clock edge
does to the machine when the beat is on the data port. -/

namespace Sys2Proof.Machine

open Sys2Proof

/-- BYTE b: process the byte; the frame goes on (R128). -/
def execByte (b : Byte) (s : State) : Host.Outcome State Fault Refusal := .next (s.offerByte b false)

/-- LAST b: process the byte; the frame ends (R129). -/
def execLast (b : Byte) (s : State) : Host.Outcome State Fault Refusal := .next (s.offerByte b true)

/-- END: the frame ends with no byte; the data bits are ignored (R130, R79). -/
def execEndBeat (_data : Byte) (s : State) : Host.Outcome State Fault Refusal :=
  .next (s.offerNoByte true)

/-- NULL: no state changes; the data bits are ignored (R131, R79). -/
def execNullBeat (_data : Byte) (s : State) : Host.Outcome State Fault Refusal :=
  .next (s.offerNoByte false)

end Sys2Proof.Machine
end

