-- ==== Sys2Proof/Machine/Commands.lean ====
section
/-! DEFINITION. The meanings of the eight commands (spec/41_crc_engine.md R139, R140,
spec/42_fcs_validator.md R161 to R166): what a clock edge does to the machine when the word is on the
command port. The op and the strategy bit latched here select what the frame's beats do
(`Engine.takeByte`) and which result `Engine.finalize` writes. -/

namespace Sys2Proof.Machine

open Sys2Proof

/-- CRC.T: op 0b00, ut = 1 (R139, R120). -/
def execCrcT (rxfcs : Word) (s : State) : Host.Outcome State Fault Refusal :=
  .next (s.offerCommand .crc true rxfcs)

/-- CRC.D: op 0b00, ut = 0 (R140, R120). -/
def execCrcD (rxfcs : Word) (s : State) : Host.Outcome State Fault Refusal :=
  .next (s.offerCommand .crc false rxfcs)

/-- FCS.T: op 0b01, ut = 1 (R161, R120). -/
def execFcsT (rxfcs : Word) (s : State) : Host.Outcome State Fault Refusal :=
  .next (s.offerCommand .fcs true rxfcs)

/-- FCS.D: op 0b01, ut = 0 (R162, R120). -/
def execFcsD (rxfcs : Word) (s : State) : Host.Outcome State Fault Refusal :=
  .next (s.offerCommand .fcs false rxfcs)

/-- VAL.T f: op 0b10, ut = 1 (R164, R120). -/
def execValT (rxfcs : Word) (s : State) : Host.Outcome State Fault Refusal :=
  .next (s.offerCommand .val true rxfcs)

/-- VAL.D f: op 0b10, ut = 0 (R165, R120). -/
def execValD (rxfcs : Word) (s : State) : Host.Outcome State Fault Refusal :=
  .next (s.offerCommand .val false rxfcs)

/-- RSV.T: op 0b11, ut = 1; accepted like any other command (R166, R120). -/
def execRsvT (rxfcs : Word) (s : State) : Host.Outcome State Fault Refusal :=
  .next (s.offerCommand .rsv true rxfcs)

/-- RSV.D: op 0b11, ut = 0; accepted like any other command (R166, R120). -/
def execRsvD (rxfcs : Word) (s : State) : Host.Outcome State Fault Refusal :=
  .next (s.offerCommand .rsv false rxfcs)

end Sys2Proof.Machine
end

