-- ==== Sys2Proof/Machine/Dispatch.lean ====
section
/-! DEFINITION. The dispatch: one arm per instruction (spec/30_encoding.md R77, R78). -/

namespace Sys2Proof.Machine

open Sys2Proof

def exec (i : Instr) (s : State) : Host.Outcome State Fault Refusal :=
  match i with
  | .crcT rxfcs => Sys2Proof.Machine.execCrcT rxfcs s
  | .crcD rxfcs => Sys2Proof.Machine.execCrcD rxfcs s
  | .fcsT rxfcs => Sys2Proof.Machine.execFcsT rxfcs s
  | .fcsD rxfcs => Sys2Proof.Machine.execFcsD rxfcs s
  | .valT rxfcs => Sys2Proof.Machine.execValT rxfcs s
  | .valD rxfcs => Sys2Proof.Machine.execValD rxfcs s
  | .rsvT rxfcs => Sys2Proof.Machine.execRsvT rxfcs s
  | .rsvD rxfcs => Sys2Proof.Machine.execRsvD rxfcs s
  | .byte data => Sys2Proof.Machine.execByte data s
  | .last data => Sys2Proof.Machine.execLast data s
  | .endBeat data => Sys2Proof.Machine.execEndBeat data s
  | .nullBeat data => Sys2Proof.Machine.execNullBeat data s

end Sys2Proof.Machine
end

