-- ==== Sys2Proof/Machine/Generator.lean ====
section
/-! DEFINITION. The table generator's edge (spec/40_table_gen.md R102 to R105). -/

namespace Sys2Proof.Machine

/-- How many entries the generator writes at this edge: one in the reference realisation (R102), and
256 entries evenly spread over `latency` edges in any other (R104, U13; log 6). -/
def Gen.pace (g : Gen) : Nat := (g.phase + 256) / g.latency

/-- `gidx` after this edge; it never exceeds 256 (R102). -/
def Gen.nextIndex (g : Gen) : Nat := min 256 (g.gidx.toNat + g.pace)

/-- The entries written after this edge: `TBL[i] <- TGEN(i)` from `gidx` on (R102). -/
def Gen.filled (g : Gen) : Table := g.fill.generate g.gidx.toNat g.nextIndex

/-- The generator's step at the edge numbered `draw`, with `rst = 0` (R102): while the table is not ready it
writes the next entries and counts; the write of entry 255 makes the table ready, and then every entry
holds what was written (R103). Before that no entry holds a value that is known (R31): each edge draws
the contents anew (log 7). Once ready it does nothing (R105). -/
def Gen.edge (draw : Nat) (g : Gen) : Gen :=
  if g.tblReady then g
  else
    { g with
      fill := g.filled
      tbl := if g.nextIndex = 256 then g.filled else Table.free draw
      gidx := BitVec.ofNat 9 g.nextIndex
      phase := (g.phase + 256) % g.latency
      tblReady := g.nextIndex == 256 }

/-- `n` edges of the generator, the first of them numbered `draw`. -/
def Gen.edges (n draw : Nat) (g : Gen) : Gen :=
  match n with
  | 0 => g
  | k + 1 => (Gen.edges k draw g).edge (draw + k)

end Sys2Proof.Machine
end

