-- ==== Sys2Proof/Machine/Edge.lean ====
section
/-! DEFINITION. One rising edge of `clk` (spec/00_scope.md R12, spec/60_exceptions.md R185): reset over
everything; otherwise the engine's single enabled action and the generator's step together, each
reading the state before the edge. -/

namespace Sys2Proof.Machine

open Sys2Proof

/-- The instruction at the one channel that the engine's state opens (R71, R185): in IDLE the offered
command word, in FRAME the offered beat, decoded. -/
def State.fetch (s : State) : Option Instr :=
  match s.eng.fsm with
  | .idle => if s.host.pins.cmdValid then some (decodeCmd s.host.pins.cmdWord) else none
  | .frame => if s.host.pins.inValid then some (decodeBeat s.host.pins.inBeat) else none
  | .shift => none
  | .done => none

/-- What the engine does at an edge with no instruction: the shift step on its own (R126), the result
accept when the host takes the result (R133), else nothing. -/
def State.ownEdge (s : State) : State :=
  match s.eng.fsm with
  | .shift => s.setEng s.eng.shiftStep
  | .done => if s.host.pins.resReady then s.setEng s.eng.takeResult else s
  | .idle => s
  | .frame => s

/-- The offer on the command port that this edge leaves waiting (R71, R210). -/
def State.waitingCmd (s : State) : Option (BitVec 35) :=
  if s.host.pins.cmdValid && !s.cmdReady then some s.host.pins.cmdWord else none

/-- The offer on the data port that this edge leaves waiting (R71, R210). -/
def State.waitingBeat (s : State) : Option (BitVec 10) :=
  if s.host.pins.inValid && !s.inReady then some s.host.pins.inBeat else none

/-- The host did not keep a waiting command word (R182, R210). -/
def State.cmdBreach (s : State) : Bool :=
  match s.host.heldCmd with
  | some w => !(s.host.pins.cmdValid && s.host.pins.cmdWord == w)
  | none => false

/-- The host did not keep a waiting beat (R182, R210). -/
def State.beatBreach (s : State) : Bool :=
  match s.host.heldBeat with
  | some w => !(s.host.pins.inValid && s.host.pins.inBeat == w)
  | none => false

/-- The ports of a host whose plan is at its end: every port stays as it is, but for an accepted offer,
which is withdrawn, and for `rst`, which goes to 0 (log 2). -/
def Pins.carryOn (p : Pins) (cmdWaits beatWaits : Bool) : Pins :=
  { p with rst := false, cmdValid := cmdWaits, inValid := beatWaits }

/-- The host's side after the edge: the ports of the next cycle, and the offers it still owes. -/
def State.hostAdvance (s : State) : HostSide :=
  match s.host.queue with
  | [] => ⟨s.host.pins.carryOn s.waitingCmd.isSome s.waitingBeat.isSome, [], s.waitingCmd, s.waitingBeat⟩
  | p :: rest => ⟨p, rest, s.waitingCmd, s.waitingBeat⟩

/-- The reset edge (R200): every element of the core's state takes its reset value, whatever else
happens (R185). -/
def State.resetEdge (s : State) : State :=
  ⟨Engine.reset, Gen.reset s.gen.latency s.draws, s.hostAdvance, s.draws + 1⟩

/-- What an edge does beside the engine's action: the generator's step (R102), the host's next ports,
a fresh draw of free values. `t` is what the engine's action left of `s`. -/
def State.finishEdge (s t : State) : State :=
  ⟨t.eng, s.gen.edge s.draws, s.hostAdvance, s.draws + 1⟩

/-- The engine's single enabled action (R185): the instruction at the open channel, or its own. -/
def State.engineEdge (s : State) : Host.Outcome State Fault Refusal :=
  match s.fetch with
  | some i => exec i s
  | none => .next s.ownEdge

/-- One rising edge of `clk` (R185). A host that breaks the stability duty gets no step (R182, U7). -/
def clockEdge (s : State) : Host.Outcome State Fault Refusal :=
  if s.host.pins.rst then .next s.resetEdge
  else if s.cmdBreach then .refused .commandOfferBroken
  else if s.beatBreach then .refused .beatOfferBroken
  else
    match s.engineEdge with
    | .next t => .next (s.finishEdge t)
    | .fault r => .fault r
    | .refused r => .refused r

/-- The table as the generator leaves it, for a state whose table is not ready (R103). -/
def Gen.complete (g : Gen) : Gen :=
  if g.tblReady then g
  else
    { g with
      gidx := 256, tblReady := true, tbl := Table.generated, fill := Table.generated, phase := 0 }

/-- The word on the port of its channel with the engine in the state that opens the channel, so that the
next edge takes it: a command in IDLE, a beat in FRAME, the table ready, `rst = 0`, no offer owed.
Every other register is as it was (log 13). -/
def State.placeWord (s : State) (p : PortWord) : State :=
  match p.channel with
  | .cmd =>
    { s with
      eng := { s.eng with fsm := .idle }
      gen := s.gen.complete
      host := { s.host with
        pins := { s.host.pins with rst := false, cmdValid := true, cmdWord := BitVec.ofNat 35 p.bits }
        heldCmd := none
        heldBeat := none } }
  | .data =>
    { s with
      eng := { s.eng with fsm := .frame }
      gen := s.gen.complete
      host := { s.host with
        pins := { s.host.pins with rst := false, inValid := true, inBeat := BitVec.ofNat 10 p.bits }
        heldCmd := none
        heldBeat := none } }

end Sys2Proof.Machine
end

