-- ==== Sys2Proof/Machine/Step.lean ====
section
/-! DEFINITION. One step of the machine, which is one rising edge of `clk`, and the placing of an
instruction where the step takes its next one. -/

namespace Sys2Proof.Machine

open Sys2Proof

/-- One step: one clock edge (spec/00_scope.md R12, D1; log 1). -/
def step (s : State) : Host.Outcome State Fault Refusal := clockEdge s

/-- `s` with the table word `w` on its port, so that the next step takes it (log 13). A number that is no
word of its port leaves `s` as it is, as the decoder refuses it (log 14). -/
def State.withFetchWord (s : State) (nbits w : Nat) : State :=
  let p : PortWord := ⟨tableChannel nbits, w⟩
  if p.wellFormed then s.placeWord p else s

end Sys2Proof.Machine
end

