-- ==== Sys2Proof/Machine/Observe.lean ====
section
/-! DEFINITION. What the host sees of a run: the result words taken since the last reset
(spec/00_scope.md R15), and the transaction of R15 as a run of the meanings: one command, the beats of
its frame, and the shift steps the engine makes on its own after each byte (spec/41_crc_engine.md R122,
R127). -/

namespace Sys2Proof.Machine

open Sys2Proof

/-- The observation after the edge at `s`, given the one before it: a reset edge starts a new one, a
result transfer adds its word (R15, R71). -/
def State.observeEdge (s : State) (seen : List (BitVec 68)) : List (BitVec 68) :=
  if s.host.pins.rst then [] else if s.acceptRes then seen ++ [s.resWord] else seen

/-- The observation after at most `k` edges from `s`, given the one before them. -/
def State.observe (k : Nat) (s : State) (seen : List (BitVec 68)) : List (BitVec 68) :=
  match k with
  | 0 => seen
  | n + 1 =>
    match step s with
    | .next t => State.observe n t (s.observeEdge seen)
    | .fault _ => seen
    | .refused _ => seen

/-- At most `n` shift edges, while the engine is in SHIFT (R126). -/
def Engine.drain (n : Nat) (e : Engine) : Engine :=
  match n with
  | 0 => e
  | k + 1 =>
    match e.fsm with
    | .shift => Engine.drain k e.shiftStep
    | .idle => e
    | .frame => e
    | .done => e

/-- One beat and the shift steps that follow it on the direct path: seven (R127). -/
def feedBeat (i : Instr) (s : State) : Host.Outcome State Fault Refusal :=
  match exec i s with
  | .next t => .next (t.setEng (t.eng.drain 7))
  | .fault r => .fault r
  | .refused r => .refused r

/-- The beats of a frame, in order (R62). -/
def feedBeats (beats : List Instr) (s : State) : Host.Outcome State Fault Refusal :=
  match beats with
  | [] => .next s
  | i :: rest =>
    match feedBeat i s with
    | .next t => feedBeats rest t
    | .fault r => .fault r
    | .refused r => .refused r

/-- A transaction up to its result: the command, then the beats of its frame (R15). -/
def transact (command : Instr) (beats : List Instr) (s : State) : Host.Outcome State Fault Refusal :=
  match exec command s with
  | .next t => feedBeats beats t
  | .fault r => .fault r
  | .refused r => .refused r

/-- The byte a beat carries: those with `keep = 1` carry one (R15, R73). -/
def beatByte (i : Instr) : List Byte :=
  match i with
  | .byte b => [b]
  | .last b => [b]
  | .endBeat _ => []
  | .nullBeat _ => []
  | .crcT _ => []
  | .crcD _ => []
  | .fcsT _ => []
  | .fcsD _ => []
  | .valT _ => []
  | .valD _ => []
  | .rsvT _ => []
  | .rsvD _ => []

/-- The frame of a transaction: the bytes its beats carry, in transfer order (R15). -/
def frameOf (beats : List Instr) : List Byte := beats.flatMap beatByte

/-- How many beats carry no byte: the NULL beats, and END (R73, R213). -/
def emptyBeats (beats : List Instr) : Nat := beats.countP fun i => (beatByte i).isEmpty

/-- The beat has `last = 0`. -/
def isMiddleBeat (i : Instr) : Bool :=
  match i with
  | .byte _ => true
  | .nullBeat _ => true
  | .last _ => false
  | .endBeat _ => false
  | .crcT _ => false
  | .crcD _ => false
  | .fcsT _ => false
  | .fcsD _ => false
  | .valT _ => false
  | .valD _ => false
  | .rsvT _ => false
  | .rsvD _ => false

/-- The beat has `last = 1`. -/
def isFinalBeat (i : Instr) : Bool :=
  match i with
  | .last _ => true
  | .endBeat _ => true
  | .byte _ => false
  | .nullBeat _ => false
  | .crcT _ => false
  | .crcD _ => false
  | .fcsT _ => false
  | .fcsD _ => false
  | .valT _ => false
  | .valD _ => false
  | .rsvT _ => false
  | .rsvD _ => false

/-- The beats of one whole frame: any number of BYTE and NULL beats, then one LAST or END (R15, R211). -/
def isFrame (beats : List Instr) : Bool :=
  match beats with
  | [] => false
  | [i] => isFinalBeat i
  | i :: rest => isMiddleBeat i && isFrame rest

/-- The op a command latches (R77). -/
def commandOp (i : Instr) : Option Op :=
  match i with
  | .crcT _ => some .crc
  | .crcD _ => some .crc
  | .fcsT _ => some .fcs
  | .fcsD _ => some .fcs
  | .valT _ => some .val
  | .valD _ => some .val
  | .rsvT _ => some .rsv
  | .rsvD _ => some .rsv
  | .byte _ => none
  | .last _ => none
  | .endBeat _ => none
  | .nullBeat _ => none

/-- The received FCS a command latches (R120). -/
def commandRxfcs (i : Instr) : Word :=
  match i with
  | .crcT f => f
  | .crcD f => f
  | .fcsT f => f
  | .fcsD f => f
  | .valT f => f
  | .valD f => f
  | .rsvT f => f
  | .rsvD f => f
  | .byte _ => 0
  | .last _ => 0
  | .endBeat _ => 0
  | .nullBeat _ => 0

/-- The result word's fields as a function of the op, the received FCS and the frame alone (R138), on
the direct strategy's arithmetic. -/
def resultOfFrame (op : Op) (rxfcs : Word) (d : List Byte) : Res := resultOf op rxfcs (regD d)

end Sys2Proof.Machine
end

