-- ==== Sys2Proof/Machine/Script.lean ====
section
/-! DEFINITION. The transaction scripts of spec/30_encoding.md R81 and R82: statements, their port words,
the pseudo-statements' expansions, and a host that drives the ports as a script says, one statement at
a time, each waiting for its channel (log 21). The core does not know of scripts; they stand beside
State. -/

namespace Sys2Proof.Machine

open Sys2Proof

/-- A statement of a script: one port transfer or one host action (R81). -/
inductive Stmt where
  | crcT
  | crcD
  | fcsT
  | fcsD
  | valT (f : Word)
  | valD (f : Word)
  | rsvT
  | rsvD
  | byte (b : Byte)
  | last (b : Byte)
  | endFrame
  | null
  /-- One result transfer. -/
  | take
  /-- Wait until `tbl_ready = 1`. -/
  | waitTbl
  /-- `rst = 1` for one cycle. -/
  | reset
  deriving DecidableEq, Repr

/-- The instruction a transfer statement sends, its ignored fields 0 (R81). -/
def Stmt.instr (st : Stmt) : Option Instr :=
  match st with
  | .crcT => some (.crcT 0)
  | .crcD => some (.crcD 0)
  | .fcsT => some (.fcsT 0)
  | .fcsD => some (.fcsD 0)
  | .valT f => some (.valT f)
  | .valD f => some (.valD f)
  | .rsvT => some (.rsvT 0)
  | .rsvD => some (.rsvD 0)
  | .byte b => some (.byte b)
  | .last b => some (.last b)
  | .endFrame => some (.endBeat 0)
  | .null => some (.nullBeat 0)
  | .take => none
  | .waitTbl => none
  | .reset => none

/-- A line's statement: a statement of R81 or a pseudo-statement of R82. -/
inductive Line where
  | stmt (st : Stmt)
  | crc
  | fcs
  | val (f : Word)
  | frame (bytes : List Byte)
  | crc32 (bytes : List Byte)
  deriving DecidableEq, Repr

/-- `FRAME b0, ..., bn-1`: BYTE beats and a LAST beat; with no byte, END (R82). -/
def frameStmts (bytes : List Byte) : List Stmt :=
  match bytes with
  | [] => [.endFrame]
  | [b] => [.last b]
  | b :: rest => .byte b :: frameStmts rest

/-- The expansion of a line (R82). The default strategy is the table strategy. -/
def Line.expand (l : Line) : List Stmt :=
  match l with
  | .stmt st => [st]
  | .crc => [.crcT]
  | .fcs => [.fcsT]
  | .val f => [.valT f]
  | .frame bytes => frameStmts bytes
  | .crc32 bytes => .crcT :: (frameStmts bytes ++ [.take])

/-- A script without pseudo-statements. -/
def expandScript (ls : List Line) : List Stmt := ls.flatMap Line.expand

/-- Ports on which nothing is offered or taken; the words on them stay. -/
def Pins.idle (p : Pins) : Pins :=
  { p with rst := false, cmdValid := false, inValid := false, resReady := false }

/-- Ports that offer one word and nothing else. -/
def Pins.offer (p : Pins) (w : PortBits) : Pins :=
  match w with
  | .cmd w => { p.idle with cmdValid := true, cmdWord := w }
  | .beat w => { p.idle with inValid := true, inBeat := w }

/-- The ports while a statement executes (R81). -/
def Stmt.drive (st : Stmt) (p : Pins) : Pins :=
  match st.instr with
  | some i => p.offer (encodeBits i)
  | none =>
    match st with
    | .take => { p.idle with resReady := true }
    | .reset => { p.idle with rst := true }
    | _ => p.idle

/-- The statement completes at the edge at `s`: its transfer happens, or its reset cycle ends (R81). -/
def Stmt.completes (st : Stmt) (s : State) : Bool :=
  match st.instr with
  | some i =>
    match encodeBits i with
    | .cmd _ => s.acceptCmd
    | .beat _ => s.acceptIn
  | none =>
    match st with
    | .take => s.acceptRes
    | .reset => true
    | _ => false

/-- A script at work on a core. -/
structure ScriptRun where
  script : List Stmt
  core : State
  deriving DecidableEq, Repr

/-- WAIT_TBL statements at the head end as soon as the table is ready; they use no cycle then (log 21). -/
def settle (ready : Bool) (script : List Stmt) : List Stmt :=
  match script with
  | .waitTbl :: rest => if ready then settle ready rest else script
  | _ => script

/-- The ports in this cycle, as the script's first statement drives them. -/
def scriptPins (script : List Stmt) (p : Pins) : Pins :=
  match script with
  | [] => p.idle
  | st :: _ => st.drive p

/-- The core in this cycle, its ports driven by the script. -/
def ScriptRun.driven (m : ScriptRun) : State :=
  m.core.setPins (scriptPins (settle m.core.gen.tblReady m.script) m.core.host.pins)

/-- What is left of the script after this cycle. -/
def ScriptRun.remaining (m : ScriptRun) : List Stmt :=
  match settle m.core.gen.tblReady m.script with
  | [] => []
  | st :: rest => if st.completes m.driven then rest else st :: rest

/-- One cycle of a script and its core. -/
def ScriptRun.cycle (m : ScriptRun) : Host.Outcome ScriptRun Fault Refusal :=
  match step m.driven with
  | .next t => .next ⟨m.remaining, t⟩
  | .fault r => .fault r
  | .refused r => .refused r

/-- `k` cycles, with the observation of them (R15), given the one before. -/
def ScriptRun.run (k : Nat) (m : ScriptRun) (seen : List (BitVec 68)) :
    Host.Outcome (ScriptRun × List (BitVec 68)) Fault Refusal :=
  match k with
  | 0 => .next (m, seen)
  | n + 1 =>
    match m.cycle with
    | .next m' => ScriptRun.run n m' (m.driven.observeEdge seen)
    | .fault r => .fault r
    | .refused r => .refused r

end Sys2Proof.Machine
end

