-- ==== Sys2Proof/Safety.lean ====
section
/-! DEFINITION. What the claims are stated in: the invariant of the machine, built from the promises
that the spec makes about every reachable state, and the conditions under which the core, and not the
host, decides what an edge does. -/

namespace Sys2Proof.Machine

open Sys2Proof

/-- Every entry of the table is TGEN of its index (spec/40_table_gen.md R103). -/
abbrev Table.Complete (t : Table) : Prop := ∀ i : Byte, t.read i = tgen i

/-- The generator's promises: `gidx` never exceeds 256 (R28, R102); the entries below it are written
(R102); a ready table is complete (R103); generation is under way exactly while the table is not
ready, and a realisation with latency 0 has nothing to generate (R104). -/
structure Gen.Ok (g : Gen) : Prop where
  gidx_le : g.gidx.toNat ≤ 256
  below : ∀ i : Byte, i.toNat < g.gidx.toNat → g.fill.read i = tgen i
  ready : g.tblReady = true → g.tbl.Complete
  busy : g.tblReady = false → 0 < g.latency ∧ g.gidx.toNat < 256 ∧ g.phase < g.latency
  still : g.tblReady = true → g.gidx.toNat = if g.latency = 0 then 0 else 256

/-- The engine's promises: `cnt` counts exactly while the engine shifts (R126) and `plast` is set only
then (R27, R126); only the direct path of a command that is not reserved shifts (R125); a result is
valid exactly in DONE (R23, R24); the reserved op leaves `R` at INIT (R166); in DONE the result register
holds the result of the latched command and of `R` (R132); `err` marks the reserved op alone and `ok` a
VAL alone (R29). -/
abbrev Engine.Ok (e : Engine) : Prop :=
  (e.fsm = .shift ↔ e.cnt ≠ 0) ∧
  (e.plast = true → e.fsm = .shift) ∧
  (e.fsm = .shift → e.cmd.ut = false ∧ e.cmd.op ≠ .rsv) ∧
  (e.resValid = true ↔ e.fsm = .done) ∧
  (e.cmd.op = .rsv → e.r = Config.init) ∧
  (e.fsm = .done → e.res = resultOf e.cmd.op e.rxfcs e.r) ∧
  (e.res.err = true ↔ e.res.op = .rsv) ∧
  (e.res.ok = true → e.res.op = .val)

/-- The invariant: both agents keep their promises, and no transaction is open before the table is ready
(spec/20_memory.md R61, spec/70_reset_and_hazards.md R206). -/
structure State.Inv (s : State) : Prop where
  eng : s.eng.Ok
  gen : s.gen.Ok
  open_ready : s.eng.fsm ≠ .idle → s.gen.tblReady = true

/-- An edge at which the core acts: no reset, and a host that kept its offers (R185, R210). -/
abbrev State.Clean (s : State) : Prop :=
  s.host.pins.rst = false ∧ s.cmdBreach = false ∧ s.beatBreach = false

/-- A command is accepted if it is offered: no reset, the table ready, the engine in IDLE (R120, R32). -/
abbrev State.OpenForCommand (s : State) : Prop :=
  s.host.pins.rst = false ∧ s.gen.tblReady = true ∧ s.eng.fsm = .idle

/-- A beat is taken if it is offered: no reset, the engine in FRAME (R121, R32). -/
abbrev State.OpenForBeat (s : State) : Prop :=
  s.host.pins.rst = false ∧ s.eng.fsm = .frame

/-- The two states differ in nothing but the engine: the table, every other piece of the generator, the
host's side and the draws are as before, and every table entry reads as before. -/
abbrev State.SameButEngine (s t : State) : Prop :=
  t.gen = s.gen ∧ t.host = s.host ∧ t.draws = s.draws ∧ ∀ i : Byte, t.gen.tbl.read i = s.gen.tbl.read i

/-- The command uses the table strategy (R77). -/
def isTableCommand (i : Instr) : Bool :=
  match i with
  | .crcT _ => true
  | .fcsT _ => true
  | .valT _ => true
  | .rsvT _ => true
  | .crcD _ => false
  | .fcsD _ => false
  | .valD _ => false
  | .rsvD _ => false
  | .byte _ => false
  | .last _ => false
  | .endBeat _ => false
  | .nullBeat _ => false

/-- A script host that owes nothing but what its first statement drives (R81, R210). -/
def ScriptRun.Faithful (m : ScriptRun) : Prop :=
  (∀ w, m.core.host.heldCmd = some w →
    ∃ st rest i, m.script = st :: rest ∧ st.instr = some i ∧ encodeBits i = .cmd w) ∧
  (∀ w, m.core.host.heldBeat = some w →
    ∃ st rest i, m.script = st :: rest ∧ st.instr = some i ∧ encodeBits i = .beat w)

end Sys2Proof.Machine
end

