-- ==== Sys2Proof/Certificates/Slice0/Obligations.lean ====
section
/-! DEFINITION. The statements for the provers, from the numbered rules of spec/. Each docstring names
its rules and says where a clause rests on a choice of the model. -/

open Sys2Proof Sys2Proof.Machine

/-! ## Encodings -/

/-- Decoding undoes encoding, for every instruction and every value of its fields (R72, R73, R77, R78). -/
def Obligations.DecodeUndoesEncode : Prop := ∀ i : Instr, decode (encode i) = .ok i

/-- Every word that fits its port decodes (R79), and encoding gives the same word back. That an END or NULL
word comes back with its don't-care data bits is the model's choice: its constructors keep the bits that R79
lets the core ignore (log 15). -/
def Obligations.EncodeUndoesDecode : Prop :=
  ∀ p : PortWord, p.wellFormed = true → ∃ i, decode p = .ok i ∧ encode i = p

/-- The rows of the opcode table select exactly the decoded instruction's mnemonic (R77, R78). -/
def Obligations.OpcodeTableSelectsTheInstruction : Prop :=
  ∀ p : PortWord, p.wellFormed = true →
    ∃ i, decode p = .ok i ∧ ∀ row ∈ opcodeTable, (row.covers p = true ↔ row.mnemonic = i.mnemonic)

/-- A number with bits beyond its port is rejected by the port's name (the model's reading, log 14). -/
def Obligations.TooWideWordsAreRejected : Prop :=
  ∀ n : Nat,
    (2 ^ 35 ≤ n → decode ⟨.cmd, n⟩ = .error .widerThanCommandWord) ∧
    (2 ^ 10 ≤ n → decode ⟨.data, n⟩ = .error .widerThanBeat)

/-- The worked encodings, both ways, and the result word of CRC.T over "HELLO". The spec marks them as its
own derivation, under R83: "derived: from rules R72, R73, R74 and 41_crc_engine.md rule R139". -/
def Obligations.WorkedEncodings : Prop :=
  decode ⟨.cmd, 0x000000004⟩ = .ok (.crcT 0) ∧ encode (.crcT 0) = ⟨.cmd, 0x000000004⟩ ∧
  decode ⟨.cmd, 0x000000000⟩ = .ok (.crcD 0) ∧ encode (.crcD 0) = ⟨.cmd, 0x000000000⟩ ∧
  decode ⟨.cmd, 0x000000005⟩ = .ok (.fcsT 0) ∧ encode (.fcsT 0) = ⟨.cmd, 0x000000005⟩ ∧
  decode ⟨.cmd, 0x000000001⟩ = .ok (.fcsD 0) ∧ encode (.fcsD 0) = ⟨.cmd, 0x000000001⟩ ∧
  decode ⟨.cmd, 0x466BE6DD6⟩ = .ok (.valT 0x8CD7CDBA) ∧
  encode (.valT 0x8CD7CDBA) = ⟨.cmd, 0x466BE6DD6⟩ ∧
  decode ⟨.cmd, 0x466BE6DDA⟩ = .ok (.valD 0x8CD7CDBB) ∧
  encode (.valD 0x8CD7CDBB) = ⟨.cmd, 0x466BE6DDA⟩ ∧
  decode ⟨.cmd, 0x000000007⟩ = .ok (.rsvT 0) ∧ encode (.rsvT 0) = ⟨.cmd, 0x000000007⟩ ∧
  decode ⟨.data, 0x148⟩ = .ok (.byte 0x48) ∧ encode (.byte 0x48) = ⟨.data, 0x148⟩ ∧
  decode ⟨.data, 0x34F⟩ = .ok (.last 0x4F) ∧ encode (.last 0x4F) = ⟨.data, 0x34F⟩ ∧
  decode ⟨.data, 0x200⟩ = .ok (.endBeat 0) ∧ encode (.endBeat 0) = ⟨.data, 0x200⟩ ∧
  decode ⟨.data, 0x000⟩ = .ok (.nullBeat 0) ∧ encode (.nullBeat 0) = ⟨.data, 0x000⟩ ∧
  (∀ s : State, s.OpenForCommand → s.Inv →
    ∃ t, transact (.crcT 0) [.byte 0x48, .byte 0x45, .byte 0x4C, .byte 0x4C, .last 0x4F] s = .next t ∧
      t.eng.res = ⟨.crc, false, false, 0x73283245, 0x8CD7CDBA⟩ ∧
      t.eng.res.pack = 0x8CD7CDBA732832450#68)

/-! ## The step, reset and the generator -/

/-- A step of a host that keeps its offers runs the decoded instruction at the open channel, the command
port in IDLE and the data port in FRAME, and beside it the generator steps (R71, R121, R185). That the
engine's part of the edge is `exec` of the word is the model's reading (log 1); the host's next ports
(log 2) and the fresh draw of free values (log 7) are the model's choice. -/
def Obligations.StepRunsTheDecodedInstruction : Prop :=
  ∀ (s : State) (i : Instr), s.Clean →
    (s.eng.fsm = .idle ∧ s.host.pins.cmdValid = true ∧ i = decodeCmd s.host.pins.cmdWord) ∨
    (s.eng.fsm = .frame ∧ s.host.pins.inValid = true ∧ i = decodeBeat s.host.pins.inBeat) →
    step s =
      match exec i s with
      | .next t => .next ⟨t.eng, s.gen.edge s.draws, s.hostAdvance, s.draws + 1⟩
      | .fault r => .fault r
      | .refused r => .refused r

/-- A table word placed by `withFetchWord` is what the next step runs (the model's own device, log 13). -/
def Obligations.PlacedWordRunsNext : Prop :=
  ∀ (s : State) (nbits w : Nat) (i : Instr), decodeTableWord nbits w = some i →
    (s.withFetchWord nbits w).fetch = some i ∧
    step (s.withFetchWord nbits w) =
      match exec i (s.withFetchWord nbits w) with
      | .next t => .next ((s.withFetchWord nbits w).finishEdge t)
      | .fault r => .fault r
      | .refused r => .refused r

/-- The state right after reset, for every latency of the realisation (R34). Nothing is stated of the table
where R34 leaves it unspecified. -/
def Obligations.ResetLeavesTheListedValues : Prop :=
  ∀ latency : Nat,
    (State.resetWith latency).eng.r = 0xFFFFFFFF ∧
    (State.resetWith latency).eng.fsm = .idle ∧
    (State.resetWith latency).eng.cmd = ⟨.crc, false⟩ ∧
    (State.resetWith latency).eng.rxfcs = 0 ∧
    (State.resetWith latency).eng.cnt = 0 ∧
    (State.resetWith latency).eng.plast = false ∧
    (State.resetWith latency).gen.gidx = 0 ∧
    (State.resetWith latency).gen.tblReady = decide (latency = 0) ∧
    (latency = 0 → ∀ i : Byte, (State.resetWith latency).gen.tbl.read i = tgen i) ∧
    (State.resetWith latency).eng.res = ⟨.crc, false, false, 0, 0⟩ ∧
    (State.resetWith latency).eng.resValid = false ∧
    Config.poly = 0x04C11DB7 ∧ Config.init = 0xFFFFFFFF ∧ Config.xorOut = 0xFFFFFFFF

/-- A reset edge, in any state and whatever the host offers, brings every element to its reset value;
no transfer happens in it, and the handshake and status outputs are 0; holding `rst` longer changes nothing
further (R200). Nothing is stated of what R200 leaves unspecified. -/
def Obligations.ResetEdgeFromAnyState : Prop :=
  ∀ s : State, s.host.pins.rst = true →
    (∃ t, step s = .next t ∧
      t.eng = (State.resetWith s.gen.latency).eng ∧
      t.gen.gidx = 0 ∧
      t.gen.tblReady = decide (s.gen.latency = 0) ∧
      t.gen.latency = s.gen.latency ∧
      (s.gen.latency = 0 → ∀ i : Byte, t.gen.tbl.read i = tgen i) ∧
      ∀ t', t.host.pins.rst = true → step t = .next t' →
        t'.eng = t.eng ∧ t'.gen.gidx = t.gen.gidx ∧ t'.gen.tblReady = t.gen.tblReady ∧
        (s.gen.latency = 0 → t'.gen.tbl = t.gen.tbl)) ∧
    s.acceptCmd = false ∧ s.acceptIn = false ∧ s.acceptRes = false ∧
    s.cmdReady = false ∧ s.inReady = false ∧ s.resValidOut = false ∧ s.busy = false ∧
    s.tblReadyOut = false

/-- What the spec leaves unspecified is the model's free value, one for each draw and address, and an edge
takes a fresh draw: every table entry after reset and after each edge that leaves the table not ready, the
debug read before the table is ready or in reset, and the result word in reset (the model's form of the open
values, logs 7, 8 and 9). -/
def Obligations.UnspecifiedValuesAreFreeDraws : Prop :=
  (∀ (latency draw : Nat) (i : Byte), latency ≠ 0 →
    (Gen.reset latency draw).tbl.read i = Config.freeTblEntry draw i) ∧
  (∀ s t : State, s.host.pins.rst = true → s.gen.latency ≠ 0 → step s = .next t →
    ∀ i : Byte, t.gen.tbl.read i = Config.freeTblEntry s.draws i) ∧
  (∀ s t : State, s.host.pins.rst = false → step s = .next t → t.gen.tblReady = false →
    ∀ i : Byte, t.gen.tbl.read i = Config.freeTblEntry s.draws i) ∧
  (∀ s : State, s.host.pins.rst = true ∨ s.gen.tblReady = false →
    s.tblRdData = Config.freeTblRdData s.draws s.host.pins.tblRdAddr) ∧
  (∀ s : State, s.host.pins.rst = true → s.resWord = Config.freeResWord s.draws) ∧
  (∀ s t : State, step s = .next t → t.draws = s.draws + 1)

/-- The invariant holds right after reset, for every latency, the reference one of `State.reset` (log 5)
among them. -/
def Obligations.ResetMeetsTheInvariant : Prop :=
  (∀ latency : Nat, (State.resetWith latency).Inv) ∧ State.reset.Inv

/-- Every step keeps the invariant: `cnt` counts exactly in SHIFT, a result is valid exactly in DONE and
is the one the op and the register give, a ready table is complete, and no transaction is open before
the table is ready (R28, R29, R61, R103, R132, R166). Its clauses about the generator's own fields (the entries
below `gidx` are written, `phase` is below the latency while generation is under way, `gidx` is 256 when it
is done and 0 for a ROM) rest on the model's choice of pace where the latency is neither 0 nor 256 (log 6),
and on its form of the entries written (log 7). That `cnt` counts in SHIFT is the spec's own derivation,
under R126: "`cnt` is never 0 while `fsm = SHIFT`". -/
def Obligations.StepKeepsTheInvariant : Prop :=
  ∀ s t : State, s.Inv → step s = .next t → t.Inv

/-- The core itself never stops: every instruction answers a next state in every state, and so does every
edge with a host that keeps its offers (R79, R180) and every edge with `rst = 1` (R185, R200). That an edge
with `rst = 1` is taken even if the host breaks an offer at it is the model's choice (log 4). -/
def Obligations.CoreNeverStops : Prop :=
  (∀ (i : Instr) (s : State), ∃ t, exec i s = .next t) ∧
  (∀ s : State, s.host.pins.rst = true ∨ s.Clean → ∃ t, step s = .next t)

/-- A host that drops or changes a waiting offer gets no step, and is refused by the channel's name
(R182, R210; U7). That an edge with `rst = 1` is taken all the same is the model's choice (log 4). -/
def Obligations.BrokenOffersAreRefused : Prop :=
  (∀ (s : State) (w : BitVec 35), s.host.pins.rst = false → s.host.heldCmd = some w →
    s.host.pins.cmdValid = false ∨ s.host.pins.cmdWord ≠ w → step s = .refused .commandOfferBroken) ∧
  (∀ (s : State) (w : BitVec 10), s.host.pins.rst = false → s.cmdBreach = false →
    s.host.heldBeat = some w →
    s.host.pins.inValid = false ∨ s.host.pins.inBeat ≠ w → step s = .refused .beatOfferBroken)

/-- An offer that its edge does not accept is neither taken nor lost: the host owes it in the next cycle,
and a host at the end of its plan offers it again (R204, R207, R210). The plan's end is the model's choice
(log 2), and so is that an offer made in reset is owed after it (log 4). -/
def Obligations.WaitingOffersAreKept : Prop :=
  ∀ s t : State, step s = .next t →
    (s.host.pins.cmdValid = true → s.cmdReady = false →
      t.host.heldCmd = some s.host.pins.cmdWord ∧
      (s.host.queue = [] → t.host.pins.cmdValid = true ∧ t.host.pins.cmdWord = s.host.pins.cmdWord)) ∧
    (s.host.pins.inValid = true → s.inReady = false →
      t.host.heldBeat = some s.host.pins.inBeat ∧
      (s.host.queue = [] → t.host.pins.inValid = true ∧ t.host.pins.inBeat = s.host.pins.inBeat))

/-- The reference realisation: one entry an edge in ascending order, ready with the write of entry 255, the
table complete then, nothing once ready, at every edge with `rst = 0` and in no other way (R102). That an
entry written before the table is ready stands in `fill`, and reaches TBL with the last one, is the model's
choice, which keeps TBL open until then (R31; log 7). -/
def Obligations.ReferenceGeneratorWritesOneEntry : Prop :=
  (∀ (g : Gen) (draw : Nat), g.Ok → g.latency = 256 → g.tblReady = false →
    (∀ i : Byte, (g.edge draw).fill.read i =
      if i.toNat = g.gidx.toNat then tgen i else g.fill.read i) ∧
    (g.edge draw).gidx = g.gidx + 1 ∧
    ((g.edge draw).tblReady = true ↔ g.gidx = 255) ∧
    (g.gidx = 255 → (g.edge draw).tbl.Complete)) ∧
  (∀ (g : Gen) (draw : Nat), g.tblReady = true → g.edge draw = g) ∧
  (∀ s t : State, s.host.pins.rst = false → step s = .next t → t.gen = s.gen.edge s.draws) ∧
  (∀ draw first k : Nat,
    (Gen.edges k first (Gen.reset 256 draw)).gidx.toNat = min k 256 ∧
    ((Gen.edges k first (Gen.reset 256 draw)).tblReady = true ↔ 256 ≤ k))

/-- For every latency the table becomes ready after exactly that many edges and stays so (R104, R103; the
pace between the entries is the model's, log 6). -/
def Obligations.TableIsReadyAfterItsLatency : Prop :=
  ∀ latency draw first n : Nat,
    ((Gen.edges n first (Gen.reset latency draw)).tblReady = true ↔ latency ≤ n) ∧
    (latency ≤ n → (Gen.edges n first (Gen.reset latency draw)).tbl.Complete)

/-- `tbl_ready` becomes 1 only with every entry generated, then stays 1 and the table stays as it is
until a reset; the next generation gives the same entries (R103, R105). -/
def Obligations.ReadyTableIsCompleteAndImmutable : Prop :=
  ∀ s t : State, s.Inv → step s = .next t →
    (t.gen.tblReady = true → ∀ i : Byte, t.gen.tbl.read i = tgen i) ∧
    (s.host.pins.rst = false → s.gen.tblReady = true →
      t.gen.tblReady = true ∧ ∀ i : Byte, t.gen.tbl.read i = s.gen.tbl.read i) ∧
    (s.gen.tblReady = true → t.gen.tblReady = false → s.host.pins.rst = true)

/-- Every table entry that the engine can read in FRAME is TGEN's (R61, R103). -/
def Obligations.EngineReadsGeneratedEntries : Prop :=
  ∀ s : State, s.Inv → s.eng.fsm = .frame →
    ∀ b : Byte, s.gen.tbl.read (tableIndex s.eng.r b) = tgen (s.eng.r.extractLsb' 24 8 ^^^ b)

/-- The output ports as functions of the state (R32). -/
def Obligations.OutputPortEquations : Prop :=
  ∀ s : State,
    (s.host.pins.rst = false →
      s.cmdReady = (s.gen.tblReady && decide (s.eng.fsm = .idle)) ∧
      s.inReady = decide (s.eng.fsm = .frame) ∧
      s.resValidOut = s.eng.resValid ∧
      s.busy = decide (s.eng.fsm ≠ .idle) ∧
      s.tblReadyOut = s.gen.tblReady ∧
      s.resWord = s.eng.res.fcs ++ s.eng.res.crc ++ BitVec.ofBool s.eng.res.ok ++
        BitVec.ofBool s.eng.res.err ++ s.eng.res.op.bits ∧
      (s.gen.tblReady = true → s.tblRdData = s.gen.tbl.read s.host.pins.tblRdAddr)) ∧
    (s.host.pins.rst = true →
      s.cmdReady = false ∧ s.inReady = false ∧ s.resValidOut = false ∧ s.busy = false ∧
      s.tblReadyOut = false)

/-- The debug read: TGEN once ready, and no effect on what the machine does (R107). Nothing is stated of the
values that R107 leaves unspecified. -/
def Obligations.DebugReadGivesTheTable : Prop :=
  ∀ s : State, s.Inv →
    (s.host.pins.rst = false → s.gen.tblReady = true →
      s.tblRdData = s.gen.tbl.read s.host.pins.tblRdAddr ∧ s.tblRdData = tgen s.host.pins.tblRdAddr ∧
      (s.host.pins.tblRdAddr = 0xB7 → s.tblRdData = 0xA379DD7B)) ∧
    (∀ (a : Byte) (t : State), step s = .next t →
      ∃ t', step (s.setPins { s.host.pins with tblRdAddr := a }) = .next t' ∧
        t'.eng = t.eng ∧ t'.gen = t.gen ∧ t'.draws = t.draws ∧
        t'.host.heldCmd = t.host.heldCmd ∧ t'.host.heldBeat = t.host.heldBeat ∧
        t'.host.queue = t.host.queue)

/-- At most one of the three channels transfers at an edge. The spec marks this as its own derivation,
under R71: "The engine's state machine allows at most one of the three channels to transfer at any one
edge". -/
def Obligations.OneTransferPerEdge : Prop :=
  ∀ s : State, s.Inv →
    (s.acceptCmd && s.acceptIn) = false ∧ (s.acceptCmd && s.acceptRes) = false ∧
    (s.acceptIn && s.acceptRes) = false

/-- The engine's transitions, every one of them with its cause, and no other (R23). -/
def Obligations.FsmTransitions : Prop :=
  ∀ s t : State, s.Inv → step s = .next t →
    (s.host.pins.rst = true → t.eng.fsm = .idle) ∧
    (s.host.pins.rst = false → s.eng.fsm = .idle →
      t.eng.fsm = if s.acceptCmd then .frame else .idle) ∧
    (s.host.pins.rst = false → s.eng.fsm = .frame →
      (s.acceptIn = false → t.eng.fsm = .frame) ∧
      (s.acceptIn = true →
        (s.host.pins.inBeat.getLsbD 8 = true → s.eng.cmd.ut = false → s.eng.cmd.op ≠ .rsv →
          t.eng.fsm = .shift) ∧
        (s.host.pins.inBeat.getLsbD 8 = false ∨ s.eng.cmd.ut = true ∨ s.eng.cmd.op = .rsv →
          t.eng.fsm = if s.host.pins.inBeat.getLsbD 9 then .done else .frame))) ∧
    (s.host.pins.rst = false → s.eng.fsm = .shift →
      t.eng.fsm = if 1 < s.eng.cnt then .shift else if s.eng.plast then .done else .frame) ∧
    (s.host.pins.rst = false → s.eng.fsm = .done →
      t.eng.fsm = if s.acceptRes then .idle else .done)

/-- In IDLE with no command offered the engine holds every register, whether the table is ready or not
(R23, R185), and with the table ready so does the generator (R193). -/
def Obligations.IdleHoldsEveryRegister : Prop :=
  ∀ s : State, s.Clean → s.eng.fsm = .idle → s.host.pins.cmdValid = false →
    ∃ t, step s = .next t ∧ t.eng = s.eng ∧ (s.gen.tblReady = true → t.gen = s.gen)

/-- In FRAME with no beat offered the engine holds every register: R, CMD, RXFCS, cnt, plast, RES, res_valid
and fsm are as before, so the frame waits for its next beat for any number of edges (R21, R121, R185, R211;
log 17). With the table ready the generator and the table hold too (R105). -/
def Obligations.FrameHoldsWhileNoBeatIsOffered : Prop :=
  ∀ s : State, s.Clean → s.eng.fsm = .frame → s.host.pins.inValid = false →
    ∃ t, step s = .next t ∧
      t.eng.r = s.eng.r ∧ t.eng.cmd = s.eng.cmd ∧ t.eng.rxfcs = s.eng.rxfcs ∧
      t.eng.cnt = s.eng.cnt ∧ t.eng.plast = s.eng.plast ∧ t.eng.res = s.eng.res ∧
      t.eng.resValid = s.eng.resValid ∧ t.eng.fsm = .frame ∧
      (s.gen.tblReady = true → t.gen = s.gen)

/-! ## The commands -/

/-- Command accept (R120), from the word on the port: the fields of the word are latched, the register
takes INIT, the shift state is cleared, the frame opens, RES and res_valid keep their values, and
res_valid is 0 already. -/
def Obligations.CommandAcceptLatchesTheWord : Prop :=
  ∀ s : State, s.cmdBreach = false → s.beatBreach = false → s.acceptCmd = true →
    ∃ t, step s = .next t ∧
      t.eng.cmd.op.bits = s.host.pins.cmdWord.extractLsb' 0 2 ∧
      t.eng.cmd.ut = s.host.pins.cmdWord.getLsbD 2 ∧
      t.eng.rxfcs = s.host.pins.cmdWord.extractLsb' 3 32 ∧
      t.eng.r = 0xFFFFFFFF ∧ t.eng.cnt = 0 ∧ t.eng.plast = false ∧ t.eng.fsm = .frame ∧
      t.eng.res = s.eng.res ∧ t.eng.resValid = s.eng.resValid ∧
      (s.Inv → s.eng.resValid = false)

/-- Every command, the reserved op's two forms included, completes when the table is ready and the engine
is in IDLE: it latches its op, strategy and received FCS, loads INIT and opens the frame (R120, R77). -/
def Obligations.CommandsAreAccepted : Prop :=
  ∀ (s : State) (f : Word), s.OpenForCommand →
    exec (.crcT f) s = .next { s with eng := { s.eng with
      cmd := ⟨.crc, true⟩, rxfcs := f, r := 0xFFFFFFFF, cnt := 0, plast := false, fsm := .frame } } ∧
    exec (.crcD f) s = .next { s with eng := { s.eng with
      cmd := ⟨.crc, false⟩, rxfcs := f, r := 0xFFFFFFFF, cnt := 0, plast := false, fsm := .frame } } ∧
    exec (.fcsT f) s = .next { s with eng := { s.eng with
      cmd := ⟨.fcs, true⟩, rxfcs := f, r := 0xFFFFFFFF, cnt := 0, plast := false, fsm := .frame } } ∧
    exec (.fcsD f) s = .next { s with eng := { s.eng with
      cmd := ⟨.fcs, false⟩, rxfcs := f, r := 0xFFFFFFFF, cnt := 0, plast := false, fsm := .frame } } ∧
    exec (.valT f) s = .next { s with eng := { s.eng with
      cmd := ⟨.val, true⟩, rxfcs := f, r := 0xFFFFFFFF, cnt := 0, plast := false, fsm := .frame } } ∧
    exec (.valD f) s = .next { s with eng := { s.eng with
      cmd := ⟨.val, false⟩, rxfcs := f, r := 0xFFFFFFFF, cnt := 0, plast := false, fsm := .frame } } ∧
    exec (.rsvT f) s = .next { s with eng := { s.eng with
      cmd := ⟨.rsv, true⟩, rxfcs := f, r := 0xFFFFFFFF, cnt := 0, plast := false, fsm := .frame } } ∧
    exec (.rsvD f) s = .next { s with eng := { s.eng with
      cmd := ⟨.rsv, false⟩, rxfcs := f, r := 0xFFFFFFFF, cnt := 0, plast := false, fsm := .frame } }

/-- A command offered before the table is ready, while a transaction is open or in reset waits, whatever
its op and strategy (R32, R71, R200, R205, R206). That `exec` of a word that is not accepted leaves the state as
it is, also where the edge itself acts, in SHIFT and in reset, is the model's reading (log 1). -/
def Obligations.CommandsWaitUntilReady : Prop :=
  ∀ (s : State) (f : Word),
    s.host.pins.rst = true ∨ s.gen.tblReady = false ∨ s.eng.fsm ≠ .idle →
    s.cmdReady = false ∧
    exec (.crcT f) s = .next s ∧ exec (.crcD f) s = .next s ∧
    exec (.fcsT f) s = .next s ∧ exec (.fcsD f) s = .next s ∧
    exec (.valT f) s = .next s ∧ exec (.valD f) s = .next s ∧
    exec (.rsvT f) s = .next s ∧ exec (.rsvD f) s = .next s

/-- The frame of the eight commands CRC.T, CRC.D, FCS.T, FCS.D, VAL.T, VAL.D, RSV.T, RSV.D: RES and
res_valid, every table entry, the generator, the host's side and the draws are unchanged. -/
def Obligations.CommandFrame : Prop :=
  ∀ (i : Instr) (op : Op) (s t : State), commandOp i = some op → exec i s = .next t →
    s.SameButEngine t ∧ t.eng.res = s.eng.res ∧ t.eng.resValid = s.eng.resValid

/-! ## The beats -/

/-- The table path (R124): a BYTE or LAST beat of a table command that is not reserved takes one edge
and one table read, and its new value is the input of finalisation when the beat is LAST (R129); with the
worked example. -/
def Obligations.TablePathTakesAByte : Prop :=
  ∀ (s : State) (b : Byte), s.OpenForBeat → s.eng.cmd.ut = true → s.eng.cmd.op ≠ .rsv →
    exec (.byte b) s = .next { s with eng := { s.eng with
      r := (s.eng.r <<< 8) ^^^ s.gen.tbl.read (s.eng.r.extractLsb' 24 8 ^^^ b) } } ∧
    exec (.last b) s = .next { s with eng := { s.eng with
      r := (s.eng.r <<< 8) ^^^ s.gen.tbl.read (s.eng.r.extractLsb' 24 8 ^^^ b)
      res := resultOf s.eng.cmd.op s.eng.rxfcs
        ((s.eng.r <<< 8) ^^^ s.gen.tbl.read (s.eng.r.extractLsb' 24 8 ^^^ b))
      resValid := true
      fsm := .done } } ∧
    (s.gen.tbl.Complete → updT s.gen.tbl 0xFFFFFFFF 0x48 = 0x5C86227B)

/-- The direct path's accept cycle (R125): the XOR and the first step, seven steps to do, the beat's last
bit kept, and no result yet. -/
def Obligations.DirectPathTakesAByte : Prop :=
  ∀ (s : State) (b : Byte), s.OpenForBeat → s.eng.cmd.ut = false → s.eng.cmd.op ≠ .rsv →
    exec (.byte b) s = .next { s with eng := { s.eng with
      r := polyStep (s.eng.r ^^^ (b.setWidth 32 <<< 24)), cnt := 7, plast := false, fsm := .shift } } ∧
    exec (.last b) s = .next { s with eng := { s.eng with
      r := polyStep (s.eng.r ^^^ (b.setWidth 32 <<< 24)), cnt := 7, plast := true, fsm := .shift } }

/-- The reserved op takes every beat in one edge, leaves `R` alone, and ends with its error result
(R166). -/
def Obligations.ReservedOpTakesEveryBeat : Prop :=
  ∀ (s : State) (b : Byte), s.OpenForBeat → s.eng.cmd.op = .rsv →
    exec (.byte b) s = .next s ∧ exec (.nullBeat b) s = .next s ∧
    exec (.last b) s = .next { s with eng := { s.eng with
      res := ⟨.rsv, true, false, 0, 0⟩, resValid := true, fsm := .done } } ∧
    exec (.endBeat b) s = .next { s with eng := { s.eng with
      res := ⟨.rsv, true, false, 0, 0⟩, resValid := true, fsm := .done } }

/-- FINALIZE per op (R132), shown on END, which finalises with `R` unchanged whatever the strategy and
whatever its data bits (R130). -/
def Obligations.EndFinalisesPerOp : Prop :=
  ∀ (s : State) (x : Byte), s.OpenForBeat →
    exec (.endBeat x) s = .next { s with eng := { s.eng with
      res :=
        match s.eng.cmd.op with
        | .crc => ⟨.crc, false, false, s.eng.r ^^^ 0xFFFFFFFF, (s.eng.r ^^^ 0xFFFFFFFF) ^^^ 0xFFFFFFFF⟩
        | .fcs => ⟨.fcs, false, false, s.eng.r ^^^ 0xFFFFFFFF, (s.eng.r ^^^ 0xFFFFFFFF) ^^^ 0xFFFFFFFF⟩
        | .val => ⟨.val, false, decide ((s.eng.r ^^^ 0xFFFFFFFF) ^^^ 0xFFFFFFFF = s.eng.rxfcs),
            s.eng.r ^^^ 0xFFFFFFFF, (s.eng.r ^^^ 0xFFFFFFFF) ^^^ 0xFFFFFFFF⟩
        | .rsv => ⟨.rsv, true, false, 0, 0⟩
      resValid := true
      fsm := .done } }

/-- END after a BYTE ends the frame exactly as LAST on that byte would, on every path. The spec marks this
as its own derivation, under R130: "`END` after `BYTE` beats ends a non-empty frame exactly as a `LAST` on
its final byte would". -/
def Obligations.EndAfterByteEqualsLast : Prop :=
  ∀ (s : State) (b x : Byte), s.OpenForBeat → s.eng.plast = false →
    feedBeats [.byte b, .endBeat x] s = feedBeats [.last b] s

/-- NULL changes nothing, whatever its data bits (R131), and any number of NULL beats anywhere among the
beats of a frame leaves the outcome as it is. The spec marks the second half as its own derivation, under
R131: "any number of `NULL` beats anywhere inside a frame leaves the result unchanged". -/
def Obligations.NullBeatsLeaveNoTrace : Prop :=
  (∀ (s : State) (x : Byte), s.OpenForBeat → exec (.nullBeat x) s = .next s) ∧
  (∀ (s : State) (before after : List Instr) (x : Byte) (n : Nat), s.eng.fsm ≠ .shift →
    feedBeats (before ++ List.replicate n (.nullBeat x) ++ after) s = feedBeats (before ++ after) s)

/-- A beat offered outside FRAME, or in reset, waits (R32, R71, R121, R200, R207, R208). That `exec` of a word
that is not accepted leaves the state as it is, also where the edge itself acts, in SHIFT and in reset, is
the model's reading (log 1). -/
def Obligations.BeatsWaitOutsideFrame : Prop :=
  ∀ (s : State) (b : Byte), s.host.pins.rst = true ∨ s.eng.fsm ≠ .frame →
    s.inReady = false ∧ exec (.byte b) s = .next s ∧ exec (.last b) s = .next s ∧
    exec (.endBeat b) s = .next s ∧ exec (.nullBeat b) s = .next s

/-- The frame of BYTE, LAST, END and NULL: CMD and RXFCS, every table entry, the generator, the host's
side and the draws are unchanged; BYTE and NULL also leave RES and res_valid; END also leaves R, cnt and
plast; a BYTE or LAST that does not enter SHIFT leaves cnt and plast, and one that does leaves RES and
res_valid. -/
def Obligations.BeatFrame : Prop :=
  ∀ (s t : State) (b : Byte),
    (exec (.byte b) s = .next t →
      s.SameButEngine t ∧ t.eng.cmd = s.eng.cmd ∧ t.eng.rxfcs = s.eng.rxfcs ∧
      t.eng.res = s.eng.res ∧ t.eng.resValid = s.eng.resValid ∧
      (s.eng.cmd.ut = true ∨ s.eng.cmd.op = .rsv →
        t.eng.cnt = s.eng.cnt ∧ t.eng.plast = s.eng.plast ∧ t.eng.fsm = s.eng.fsm)) ∧
    (exec (.last b) s = .next t →
      s.SameButEngine t ∧ t.eng.cmd = s.eng.cmd ∧ t.eng.rxfcs = s.eng.rxfcs ∧
      (s.eng.cmd.ut = true ∨ s.eng.cmd.op = .rsv →
        t.eng.cnt = s.eng.cnt ∧ t.eng.plast = s.eng.plast) ∧
      (s.eng.cmd.ut = false → s.eng.cmd.op ≠ .rsv →
        t.eng.res = s.eng.res ∧ t.eng.resValid = s.eng.resValid)) ∧
    (exec (.endBeat b) s = .next t →
      s.SameButEngine t ∧ t.eng.cmd = s.eng.cmd ∧ t.eng.rxfcs = s.eng.rxfcs ∧
      t.eng.r = s.eng.r ∧ t.eng.cnt = s.eng.cnt ∧ t.eng.plast = s.eng.plast) ∧
    (exec (.nullBeat b) s = .next t → t = s)

/-! ## The engine's own edges -/

/-- The shift cycle (R126): one step, the count, and at the eighth step FRAME or FINALIZE; `in_ready` is 0
throughout. The invariant rules out the `cnt` that the rule does not give a SHIFT state. -/
def Obligations.ShiftCycle : Prop :=
  ∀ s : State, s.Clean → s.Inv → s.eng.fsm = .shift →
    s.inReady = false ∧
    ∃ t, step s = .next t ∧
      t.eng =
        if 1 < s.eng.cnt then { s.eng with r := polyStep s.eng.r, cnt := s.eng.cnt - 1 }
        else if s.eng.plast then
          { s.eng with
            r := polyStep s.eng.r, cnt := 0, plast := false
            res := resultOf s.eng.cmd.op s.eng.rxfcs (polyStep s.eng.r), resValid := true, fsm := .done }
        else { s.eng with r := polyStep s.eng.r, cnt := 0, fsm := .frame }

/-- Result accept (R133): res_valid, which is 1 in DONE, falls, the engine goes to IDLE, RES keeps its value;
a result that is not taken is held. -/
def Obligations.ResultIsHeldUntilTaken : Prop :=
  ∀ s : State, s.Clean → s.Inv → s.eng.fsm = .done →
    s.eng.resValid = true ∧ s.acceptRes = s.host.pins.resReady ∧
    ∃ t, step s = .next t ∧
      t.eng = if s.host.pins.resReady then { s.eng with resValid := false, fsm := .idle } else s.eng

/-- Net effect of the direct path: the accept cycle and seven shift cycles leave UPD_D of the register, in
FRAME, or in DONE if the byte was the last. The spec marks this as its own derivation, R127: "So the cycle
realisation computes exactly the transaction-level update of rule R123". -/
def Obligations.EightCyclesAreOneDirectUpdate : Prop :=
  ∀ (e : Engine) (b : Byte) (last : Bool),
    ((e.directByte b last).drain 7).r = updD e.r b ∧
    ((e.directByte b last).drain 7).fsm = (if last then .done else .frame) ∧
    ∀ n, n < 7 → ((e.directByte b last).drain n).fsm = .shift

/-! ## Arithmetic -/

/-- STEP (R100): the test before the shift, the XOR after it, the corner cases and the worked example. -/
def Obligations.StepOfThePolynomial : Prop :=
  (∀ r : Word, polyStep r = if r.getLsbD 31 = true then (r <<< 1) ^^^ 0x04C11DB7 else r <<< 1) ∧
  polyStep 0 = 0 ∧ polyStep 0x80000000 = 0x04C11DB7 ∧ polyStep 0xFFFFFFFF = 0xFB3EE249 ∧
  polyStep 0x9823B6E0 = 0x34867077

/-- STEP and UPD_D are linear over GF(2), and so is the repeated STEP. The spec marks the first as its own
derivation, under R100: "STEP is linear over GF(2)"; the others follow from it. -/
def Obligations.StepIsLinear : Prop :=
  (∀ a b : Word, polyStep (a ^^^ b) = polyStep a ^^^ polyStep b) ∧
  (∀ (n : Nat) (a b : Word), polySteps n (a ^^^ b) = polySteps n a ^^^ polySteps n b) ∧
  (∀ (r q : Word) (b c : Byte), updD (r ^^^ q) (b ^^^ c) = updD r b ^^^ updD q c)

/-- TGEN (R101): eight steps from the byte at bits 31..24, its corner cases, and the trace of TGEN(0x80). -/
def Obligations.TableEntryFunction : Prop :=
  (∀ i : Byte, tgen i = polyStep (polyStep (polyStep (polyStep (polyStep (polyStep (polyStep
    (polyStep (i.setWidth 32 <<< 24))))))))) ∧
  (∀ i : Byte, tgen i = polySteps 8 (i.setWidth 32 <<< 24)) ∧
  tgen 0x00 = 0 ∧ tgen 0x01 = 0x04C11DB7 ∧ tgen 0x80 = 0x690CE0EE ∧ tgen 0xFF = 0xB1F740B4 ∧
  (0x80#8).setWidth 32 <<< 24 = 0x80000000#32 ∧
  polySteps 1 0x80000000 = 0x04C11DB7 ∧ polySteps 2 0x80000000 = 0x09823B6E ∧
  polySteps 3 0x80000000 = 0x130476DC ∧ polySteps 4 0x80000000 = 0x2608EDB8 ∧
  polySteps 5 0x80000000 = 0x4C11DB70 ∧ polySteps 6 0x80000000 = 0x9823B6E0 ∧
  polySteps 7 0x80000000 = 0x34867077 ∧ polySteps 8 0x80000000 = 0x690CE0EE

/-- The laws of TGEN: zero, linearity, the eight entries that fix the table, the direct update of a zero
register, and that the low bytes of the entries are all distinct. The spec marks them as its own derivation,
R108: "Derived laws of TGEN, each following from rules R100 and R101". -/
def Obligations.LawsOfTheTable : Prop :=
  tgen 0 = 0 ∧
  (∀ a b : Byte, tgen (a ^^^ b) = tgen a ^^^ tgen b) ∧
  tgen 0x01 = 0x04C11DB7 ∧ tgen 0x02 = 0x09823B6E ∧ tgen 0x04 = 0x130476DC ∧ tgen 0x08 = 0x2608EDB8 ∧
  tgen 0x10 = 0x4C11DB70 ∧ tgen 0x20 = 0x9823B6E0 ∧ tgen 0x40 = 0x34867077 ∧ tgen 0x80 = 0x690CE0EE ∧
  (∀ i : Byte, tgen i = updD 0 i) ∧
  (∀ a b : Byte, (tgen a).extractLsb' 0 8 = (tgen b).extractLsb' 0 8 → a = b) ∧
  (∀ a b : Byte, tgen a = tgen b → a = b)

/-- The strategies agree: over a complete table the two byte updates are one function, and so are the
register and the CRC of every frame. The spec marks this as its own derivation, R135, and quotes the source
as requiring it: "`compute_crc(d, use_table=true) == compute_crc(d, use_table=false)`". -/
def Obligations.StrategiesAgree : Prop :=
  ∀ t : Table, t.Complete →
    (∀ (r : Word) (b : Byte), updT t r b = updD r b) ∧
    (∀ d : List Byte, regT t d = regD d) ∧
    (∀ d : List Byte, crcOf (regT t d) = crcOf (regD d))

/-- The feedback form is an allowed realisation: after each whole byte the register is the same. The spec
marks this as its own derivation, R136: "This gives the same `R` after each whole byte". -/
def Obligations.FeedbackFormAgrees : Prop := ∀ (r : Word) (b : Byte), updFeedback r b = updD r b

/-- The residue: a frame followed by its FCS, most significant byte first, leaves the register at 0 on both
strategies, so its CRC is all ones. The spec marks this as its own derivation, R171: "Then `REG_s(e) =
0x00000000`, and `CRC.s` over e gives crc 0xFFFFFFFF". -/
def Obligations.ResidueOfAFrameWithItsFcs : Prop :=
  ∀ (t : Table) (d : List Byte), t.Complete →
    regD (d ++ fcsBytes .msbFirst (fcsOf (crcOf (regD d)))) = 0 ∧
    regT t (d ++ fcsBytes .msbFirst (fcsOf (crcOf (regT t d)))) = 0 ∧
    crcOf (regD (d ++ fcsBytes .msbFirst (fcsOf (crcOf (regD d))))) = 0xFFFFFFFF ∧
    crcOf (regT t (d ++ fcsBytes .msbFirst (fcsOf (crcOf (regT t d))))) = 0xFFFFFFFF

/-- FCS is the complement of the CRC (R160), and so the register at the end of the frame. The spec marks
the second half as its own derivation, under R160: "The FCS is the register value at the end of the frame,
before the output inversion". -/
def Obligations.FcsIsTheFinalRegister : Prop :=
  (∀ crc : Word, fcsOf crc = crc ^^^ 0xFFFFFFFF ∧ fcsOf crc = ~~~crc) ∧ (∀ r : Word, fcsOf (crcOf r) = r)

/-! ## Transactions -/

/-- CRC.T, FCS.T and VAL.T at transaction level (R139, R161, R164): the fold of the table-driven update
over the frame's bytes, whatever NULL beats stand among them and whether LAST or END ends it. No
assumption on the table. -/
def Obligations.TableStrategyTransactions : Prop :=
  ∀ (s : State) (f : Word) (beats : List Instr), s.OpenForCommand → isFrame beats = true →
    (∃ t, transact (.crcT f) beats s = .next t ∧ t.eng.fsm = .done ∧ t.eng.resValid = true ∧
      t.eng.r = regT s.gen.tbl (frameOf beats) ∧
      t.eng.res = ⟨.crc, false, false, regT s.gen.tbl (frameOf beats) ^^^ 0xFFFFFFFF,
        fcsOf (regT s.gen.tbl (frameOf beats) ^^^ 0xFFFFFFFF)⟩) ∧
    (∃ t, transact (.fcsT f) beats s = .next t ∧ t.eng.fsm = .done ∧ t.eng.resValid = true ∧
      t.eng.r = regT s.gen.tbl (frameOf beats) ∧
      t.eng.res = ⟨.fcs, false, false, regT s.gen.tbl (frameOf beats) ^^^ 0xFFFFFFFF,
        fcsOf (regT s.gen.tbl (frameOf beats) ^^^ 0xFFFFFFFF)⟩) ∧
    (∃ t, transact (.valT f) beats s = .next t ∧ t.eng.fsm = .done ∧ t.eng.resValid = true ∧
      t.eng.r = regT s.gen.tbl (frameOf beats) ∧
      t.eng.res = ⟨.val, false, decide (fcsOf (regT s.gen.tbl (frameOf beats) ^^^ 0xFFFFFFFF) = f),
        regT s.gen.tbl (frameOf beats) ^^^ 0xFFFFFFFF,
        fcsOf (regT s.gen.tbl (frameOf beats) ^^^ 0xFFFFFFFF)⟩)

/-- CRC.D, FCS.D and VAL.D at transaction level (R140, R162, R165): the fold of the direct update. -/
def Obligations.DirectStrategyTransactions : Prop :=
  ∀ (s : State) (f : Word) (beats : List Instr), s.OpenForCommand → isFrame beats = true →
    (∃ t, transact (.crcD f) beats s = .next t ∧ t.eng.fsm = .done ∧ t.eng.resValid = true ∧
      t.eng.r = regD (frameOf beats) ∧
      t.eng.res = ⟨.crc, false, false, regD (frameOf beats) ^^^ 0xFFFFFFFF,
        fcsOf (regD (frameOf beats) ^^^ 0xFFFFFFFF)⟩) ∧
    (∃ t, transact (.fcsD f) beats s = .next t ∧ t.eng.fsm = .done ∧ t.eng.resValid = true ∧
      t.eng.r = regD (frameOf beats) ∧
      t.eng.res = ⟨.fcs, false, false, regD (frameOf beats) ^^^ 0xFFFFFFFF,
        fcsOf (regD (frameOf beats) ^^^ 0xFFFFFFFF)⟩) ∧
    (∃ t, transact (.valD f) beats s = .next t ∧ t.eng.fsm = .done ∧ t.eng.resValid = true ∧
      t.eng.r = regD (frameOf beats) ∧
      t.eng.res = ⟨.val, false, decide (fcsOf (regD (frameOf beats) ^^^ 0xFFFFFFFF) = f),
        regD (frameOf beats) ^^^ 0xFFFFFFFF, fcsOf (regD (frameOf beats) ^^^ 0xFFFFFFFF)⟩)

/-- RSV.T and RSV.D at transaction level (R166): the frame is consumed, `R` stays INIT, and the result is
the error word 7, whatever the frame and the received FCS. -/
def Obligations.ReservedTransactions : Prop :=
  ∀ (s : State) (f : Word) (beats : List Instr), s.OpenForCommand → isFrame beats = true →
    (∃ t, transact (.rsvT f) beats s = .next t ∧ t.eng.fsm = .done ∧ t.eng.resValid = true ∧
      t.eng.r = 0xFFFFFFFF ∧ t.eng.res = ⟨.rsv, true, false, 0, 0⟩ ∧ t.eng.res.pack = 7) ∧
    (∃ t, transact (.rsvD f) beats s = .next t ∧ t.eng.fsm = .done ∧ t.eng.resValid = true ∧
      t.eng.r = 0xFFFFFFFF ∧ t.eng.res = ⟨.rsv, true, false, 0, 0⟩ ∧ t.eng.res.pack = 7)

/-- Determinism: every field of a result is a function of the op, the received FCS and the frame's bytes
alone, whatever the strategy, the NULL beats, the way the frame ends and the state before. The spec marks
this as its own derivation, R138: "Every `RES` field of a transaction is a function of `CMD.op`, `RXFCS` and
the frame d alone". -/
def Obligations.ResultDependsOnOpFcsAndFrame : Prop :=
  ∀ (c : Instr) (op : Op) (s : State) (beats : List Instr),
    commandOp c = some op → s.OpenForCommand → s.Inv → isFrame beats = true →
    ∃ t, transact c beats s = .next t ∧
      t.eng.res = resultOfFrame op (commandRxfcs c) (frameOf beats) ∧
      t.gen = s.gen ∧ t.host = s.host ∧ t.draws = s.draws

/-- The complement law, for every frame and every op that is not reserved, on either strategy. The spec marks
it as its own derivation, R167: "For every frame d and every non-reserved op, `RES.fcs ^ RES.crc =
0xFFFFFFFF`". -/
def Obligations.ComplementLaw : Prop :=
  ∀ (c : Instr) (op : Op) (s t : State) (beats : List Instr),
    commandOp c = some op → op ≠ .rsv → s.OpenForCommand → isFrame beats = true →
    transact c beats s = .next t → t.eng.res.fcs ^^^ t.eng.res.crc = 0xFFFFFFFF

/-- Validation correctness: the calculated FCS gives ok = 1, every other value 0, each single-bit flip of it
among them, on either strategy. The spec marks the general half as its own derivation, R168: "every f other
than the calculated FCS gives ok 0". -/
def Obligations.ValidationIsExact : Prop :=
  ∀ (s : State) (beats : List Instr) (f : Word), s.OpenForCommand → s.Inv → isFrame beats = true →
    (∃ t, transact (.valT f) beats s = .next t ∧
      (t.eng.res.ok = true ↔ f = fcsOf (crcOf (regD (frameOf beats))))) ∧
    (∃ t, transact (.valD f) beats s = .next t ∧
      (t.eng.res.ok = true ↔ f = fcsOf (crcOf (regD (frameOf beats))))) ∧
    (∀ k, k < 32 → f = fcsOf (crcOf (regD (frameOf beats))) ^^^ (1#32 <<< k) →
      (∃ t, transact (.valT f) beats s = .next t ∧ t.eng.res.ok = false) ∧
      (∃ t, transact (.valD f) beats s = .next t ∧ t.eng.res.ok = false))

/-- The empty frame (R137): a command that is not reserved, followed directly by END, leaves INIT in the
register and gives crc 0, on both strategies. -/
def Obligations.EmptyFrameGivesZero : Prop :=
  regD [] = 0xFFFFFFFF ∧ (∀ t : Table, regT t [] = 0xFFFFFFFF) ∧
  ∀ (c : Instr) (op : Op) (s : State) (x : Byte),
    commandOp c = some op → op ≠ .rsv → s.OpenForCommand →
    ∃ t, transact c [.endBeat x] s = .next t ∧ t.eng.r = 0xFFFFFFFF ∧ t.eng.res.crc = 0x00000000

/-- The corruption scenario: "HELLO" against its FCS with bit 0 flipped. The spec marks the number as its own
derivation, R169: "The numeric F is derived from the rules". -/
def Obligations.CorruptionScenario : Prop :=
  ∀ s : State, s.OpenForCommand → s.Inv →
    (∃ t, transact (.valT 0x8CD7CDBB) [.byte 0x48, .byte 0x45, .byte 0x4C, .byte 0x4C, .last 0x4F] s =
      .next t ∧ t.eng.res = ⟨.val, false, false, 0x73283245, 0x8CD7CDBA⟩) ∧
    (∃ t, transact (.valD 0x8CD7CDBB) [.byte 0x48, .byte 0x45, .byte 0x4C, .byte 0x4C, .last 0x4F] s =
      .next t ∧ t.eng.res = ⟨.val, false, false, 0x73283245, 0x8CD7CDBA⟩)

/-- Reset aborts a transaction (R202): after the edge no transaction is open and no result is held, and
from then on none appears until a new command is accepted. -/
def Obligations.ResetAbortsTheTransaction : Prop :=
  (∀ s t : State, s.host.pins.rst = true → step s = .next t →
    t.eng.fsm = .idle ∧ t.eng.resValid = false ∧ t.eng.cnt = 0) ∧
  (∀ s t : State, s.Inv → s.eng.fsm = .idle → s.acceptCmd = false → step s = .next t →
    t.eng.fsm = .idle ∧ t.eng.resValid = false ∧ t.acceptRes = false)

/-! ## Scripts and timing -/

/-- A host that follows a script never breaks an offer (R210): it is never refused, and it goes on owing
nothing but its next statement. The script host, which holds each statement's offer until it is accepted,
is the model's choice of a host that R81 describes (log 21). -/
def Obligations.ScriptHostsAreNeverRefused : Prop :=
  ∀ m : ScriptRun, m.Faithful → ∃ m', m.cycle = .next m' ∧ m'.Faithful

/-- Whole transactions of a table command or of the reserved op, over every frame: with n beats (BYTE, NULL,
and one LAST or END) n + 2 cycles from the command's offer to IDLE, the result word taken in the last of
them and not before (R213). The cycle counts are the reference design's, the model's choice (log 12), and
the host is the script host, the model's choice too (log 21). -/
def Obligations.TableTransactionTiming : Prop :=
  ∀ (st : Stmt) (c : Instr) (op : Op) (stmts : List Stmt) (beats : List Instr) (s : State)
    (seen : List (BitVec 68)),
    st.instr = some c → commandOp c = some op → isTableCommand c = true ∨ op = .rsv →
    stmts.map Stmt.instr = beats.map some → isFrame beats = true →
    s.Inv → s.gen.tblReady = true → s.eng.fsm = .idle →
    s.host.heldCmd = none → s.host.heldBeat = none →
    (∃ t, ScriptRun.run (beats.length + 1) ⟨st :: (stmts ++ [.take]), s⟩ seen =
      .next (⟨[.take], t⟩, seen) ∧ t.eng.fsm = .done) ∧
    (∃ t, ScriptRun.run (beats.length + 2) ⟨st :: (stmts ++ [.take]), s⟩ seen =
      .next (⟨[], t⟩, seen ++ [(resultOfFrame op (commandRxfcs c) (frameOf beats)).pack]) ∧
      t.eng.fsm = .idle)

/-- Whole transactions of a direct command, over every frame: 8 cycles for each byte, 1 for each beat without
one (NULL, END), and 2 more; so 8n + 2 for n bytes ending in LAST and 3 for the empty frame (R213). The
cycle counts are the reference design's, the model's choice (log 12), and the host is the script host, the
model's choice too (log 21). -/
def Obligations.DirectTransactionTiming : Prop :=
  ∀ (st : Stmt) (c : Instr) (op : Op) (stmts : List Stmt) (beats : List Instr) (s : State)
    (seen : List (BitVec 68)),
    st.instr = some c → commandOp c = some op → isTableCommand c = false → op ≠ .rsv →
    stmts.map Stmt.instr = beats.map some → isFrame beats = true →
    s.Inv → s.gen.tblReady = true → s.eng.fsm = .idle →
    s.host.heldCmd = none → s.host.heldBeat = none →
    (∃ t, ScriptRun.run (8 * (frameOf beats).length + emptyBeats beats + 1)
      ⟨st :: (stmts ++ [.take]), s⟩ seen = .next (⟨[.take], t⟩, seen) ∧ t.eng.fsm = .done) ∧
    (∃ t, ScriptRun.run (8 * (frameOf beats).length + emptyBeats beats + 2)
      ⟨st :: (stmts ++ [.take]), s⟩ seen =
        .next (⟨[], t⟩, seen ++ [(resultOfFrame op (commandRxfcs c) (frameOf beats)).pack]) ∧
      t.eng.fsm = .idle)
end

