-- ==== Sys2Proof/Laws/State.lean ====
section
/-! SUPPORT. What each update of the state leaves in each part, one lemma per part per update, so that no
proof unfolds a record update. -/

namespace Sys2Proof.Machine

section StateUpdates
variable (s : State) (e : Engine) (g : Gen) (h : HostSide) (p : Pins)

@[simp] theorem State.setEng_eng : (s.setEng e).eng = e := rfl
@[simp] theorem State.setEng_gen : (s.setEng e).gen = s.gen := rfl
@[simp] theorem State.setEng_host : (s.setEng e).host = s.host := rfl
@[simp] theorem State.setEng_draws : (s.setEng e).draws = s.draws := rfl
@[simp] theorem State.setEng_self : s.setEng s.eng = s := rfl
@[simp] theorem State.setEng_setEng (e' : Engine) : (s.setEng e).setEng e' = s.setEng e' := rfl
@[simp] theorem State.setGen_eng : (s.setGen g).eng = s.eng := rfl
@[simp] theorem State.setGen_gen : (s.setGen g).gen = g := rfl
@[simp] theorem State.setGen_host : (s.setGen g).host = s.host := rfl
@[simp] theorem State.setGen_draws : (s.setGen g).draws = s.draws := rfl
@[simp] theorem State.setHost_eng : (s.setHost h).eng = s.eng := rfl
@[simp] theorem State.setHost_gen : (s.setHost h).gen = s.gen := rfl
@[simp] theorem State.setHost_host : (s.setHost h).host = h := rfl
@[simp] theorem State.setHost_draws : (s.setHost h).draws = s.draws := rfl
@[simp] theorem State.setPins_eng : (s.setPins p).eng = s.eng := rfl
@[simp] theorem State.setPins_gen : (s.setPins p).gen = s.gen := rfl
@[simp] theorem State.setPins_pins : (s.setPins p).host.pins = p := rfl
@[simp] theorem State.setPins_queue : (s.setPins p).host.queue = s.host.queue := rfl
@[simp] theorem State.setPins_heldCmd : (s.setPins p).host.heldCmd = s.host.heldCmd := rfl
@[simp] theorem State.setPins_heldBeat : (s.setPins p).host.heldBeat = s.host.heldBeat := rfl
@[simp] theorem State.setPins_draws : (s.setPins p).draws = s.draws := rfl

end StateUpdates

section EngineUpdates
variable (e : Engine) (op : Op) (ut : Bool) (f rn : Word) (t : Table) (b : Byte) (l : Bool)

@[simp] theorem Engine.accept_r : (e.accept op ut f).r = Config.init := rfl
@[simp] theorem Engine.accept_fsm : (e.accept op ut f).fsm = .frame := rfl
@[simp] theorem Engine.accept_cmd : (e.accept op ut f).cmd = ⟨op, ut⟩ := rfl
@[simp] theorem Engine.accept_rxfcs : (e.accept op ut f).rxfcs = f := rfl
@[simp] theorem Engine.accept_cnt : (e.accept op ut f).cnt = 0 := rfl
@[simp] theorem Engine.accept_plast : (e.accept op ut f).plast = false := rfl
@[simp] theorem Engine.accept_res : (e.accept op ut f).res = e.res := rfl
@[simp] theorem Engine.accept_resValid : (e.accept op ut f).resValid = e.resValid := rfl

@[simp] theorem Engine.finalize_r : (e.finalize rn).r = e.r := rfl
@[simp] theorem Engine.finalize_fsm : (e.finalize rn).fsm = .done := rfl
@[simp] theorem Engine.finalize_cmd : (e.finalize rn).cmd = e.cmd := rfl
@[simp] theorem Engine.finalize_rxfcs : (e.finalize rn).rxfcs = e.rxfcs := rfl
@[simp] theorem Engine.finalize_cnt : (e.finalize rn).cnt = e.cnt := rfl
@[simp] theorem Engine.finalize_plast : (e.finalize rn).plast = e.plast := rfl
@[simp] theorem Engine.finalize_res : (e.finalize rn).res = resultOf e.cmd.op e.rxfcs rn := rfl
@[simp] theorem Engine.finalize_resValid : (e.finalize rn).resValid = true := rfl

@[simp] theorem Engine.directByte_r : (e.directByte b l).r = polyStep (e.r ^^^ byteAtTop b) := rfl
@[simp] theorem Engine.directByte_fsm : (e.directByte b l).fsm = .shift := rfl
@[simp] theorem Engine.directByte_cmd : (e.directByte b l).cmd = e.cmd := rfl
@[simp] theorem Engine.directByte_rxfcs : (e.directByte b l).rxfcs = e.rxfcs := rfl
@[simp] theorem Engine.directByte_cnt : (e.directByte b l).cnt = 7 := rfl
@[simp] theorem Engine.directByte_plast : (e.directByte b l).plast = l := rfl
@[simp] theorem Engine.directByte_res : (e.directByte b l).res = e.res := rfl
@[simp] theorem Engine.directByte_resValid : (e.directByte b l).resValid = e.resValid := rfl

@[simp] theorem Engine.takeResult_r : e.takeResult.r = e.r := rfl
@[simp] theorem Engine.takeResult_fsm : e.takeResult.fsm = .idle := rfl
@[simp] theorem Engine.takeResult_cmd : e.takeResult.cmd = e.cmd := rfl
@[simp] theorem Engine.takeResult_rxfcs : e.takeResult.rxfcs = e.rxfcs := rfl
@[simp] theorem Engine.takeResult_cnt : e.takeResult.cnt = e.cnt := rfl
@[simp] theorem Engine.takeResult_plast : e.takeResult.plast = e.plast := rfl
@[simp] theorem Engine.takeResult_res : e.takeResult.res = e.res := rfl
@[simp] theorem Engine.takeResult_resValid : e.takeResult.resValid = false := rfl

@[simp] theorem Engine.tableByte_cmd : (e.tableByte t b l).cmd = e.cmd := by cases l <;> rfl
@[simp] theorem Engine.tableByte_rxfcs : (e.tableByte t b l).rxfcs = e.rxfcs := by cases l <;> rfl
@[simp] theorem Engine.tableByte_r : (e.tableByte t b l).r = updT t e.r b := by cases l <;> rfl
@[simp] theorem Engine.reservedByte_r : (e.reservedByte l).r = e.r := by cases l <;> rfl
@[simp] theorem Engine.reservedByte_cmd : (e.reservedByte l).cmd = e.cmd := by cases l <;> rfl
@[simp] theorem Engine.reservedByte_rxfcs : (e.reservedByte l).rxfcs = e.rxfcs := by cases l <;> rfl
@[simp] theorem Engine.takeNoByte_r : (e.takeNoByte l).r = e.r := by cases l <;> rfl
@[simp] theorem Engine.takeNoByte_cmd : (e.takeNoByte l).cmd = e.cmd := by cases l <;> rfl
@[simp] theorem Engine.takeNoByte_rxfcs : (e.takeNoByte l).rxfcs = e.rxfcs := by cases l <;> rfl

end EngineUpdates

/-- Everything a beat with a byte can do: nothing or the reserved result, one table update, or the entry
into SHIFT (spec/41_crc_engine.md R128, R129). -/
theorem Engine.takeByte_cases (e : Engine) (t : Table) (b : Byte) (l : Bool) :
    (e.cmd.op = .rsv ∧ e.takeByte t b l = e.reservedByte l) ∨
    (e.cmd.op ≠ .rsv ∧ e.cmd.ut = true ∧ e.takeByte t b l = e.tableByte t b l) ∨
    (e.cmd.op ≠ .rsv ∧ e.cmd.ut = false ∧ e.takeByte t b l = e.directByte b l) := by
  unfold Engine.takeByte
  by_cases ho : e.cmd.op = .rsv
  · exact .inl ⟨ho, if_pos ho⟩
  · cases hu : e.cmd.ut with
    | true => exact .inr (.inl ⟨ho, rfl, (if_neg ho).trans (if_pos rfl)⟩)
    | false => exact .inr (.inr ⟨ho, rfl, (if_neg ho).trans (if_neg Bool.false_ne_true)⟩)

/-- The reserved op's result (spec/42_fcs_validator.md R166). -/
@[simp] theorem resultOf_rsv (f rn : Word) : resultOf .rsv f rn = ⟨.rsv, true, false, 0, 0⟩ := rfl

/-- The table byte, by the beat's `last` bit. -/
theorem Engine.tableByte_eq (e : Engine) (t : Table) (b : Byte) (l : Bool) :
    e.tableByte t b l =
      if l then ({ e with r := updT t e.r b } : Engine).finalize (updT t e.r b)
      else { e with r := updT t e.r b } := rfl

/-- The shift step, by `cnt` and `plast`. -/
theorem Engine.shiftStep_eq (e : Engine) :
    e.shiftStep =
      if 1 < e.cnt then { e with r := polyStep e.r, cnt := e.cnt - 1 }
      else if e.plast then
        ({ e with r := polyStep e.r, cnt := 0, plast := false } : Engine).finalize (polyStep e.r)
      else { e with r := polyStep e.r, cnt := 0, fsm := .frame } := rfl

@[simp] theorem Engine.shiftStep_r (e : Engine) : e.shiftStep.r = polyStep e.r := by
  rw [shiftStep_eq]; split <;> [rfl; (split <;> rfl)]

@[simp] theorem Engine.shiftStep_cmd (e : Engine) : e.shiftStep.cmd = e.cmd := by
  rw [shiftStep_eq]; split <;> [rfl; (split <;> rfl)]

@[simp] theorem Engine.shiftStep_rxfcs (e : Engine) : e.shiftStep.rxfcs = e.rxfcs := by
  rw [shiftStep_eq]; split <;> [rfl; (split <;> rfl)]

end Sys2Proof.Machine
end

