-- ==== Sys2Proof/Laws/Exec.lean ====
section
/-! SUPPORT. Everything an instruction and an edge can do, once: `exec` always answers a next state that
differs from the old one in the engine alone, and a step is a reset edge, a refusal of a host breach, or
an engine action with the generator's step. -/

namespace Sys2Proof.Machine

open Sys2Proof

theorem State.cmdReady_iff (s : State) :
    s.cmdReady = true ↔ s.host.pins.rst = false ∧ s.gen.tblReady = true ∧ s.eng.fsm = .idle := by
  simp [State.cmdReady]

theorem State.inReady_iff (s : State) :
    s.inReady = true ↔ s.host.pins.rst = false ∧ s.eng.fsm = .frame := by
  simp [State.inReady]

/-- The engine after the edge with the given instruction on its channel. -/
def engineAfter (i : Instr) (s : State) : Engine :=
  match i with
  | .crcT f => (s.offerCommand .crc true f).eng
  | .crcD f => (s.offerCommand .crc false f).eng
  | .fcsT f => (s.offerCommand .fcs true f).eng
  | .fcsD f => (s.offerCommand .fcs false f).eng
  | .valT f => (s.offerCommand .val true f).eng
  | .valD f => (s.offerCommand .val false f).eng
  | .rsvT f => (s.offerCommand .rsv true f).eng
  | .rsvD f => (s.offerCommand .rsv false f).eng
  | .byte b => (s.offerByte b false).eng
  | .last b => (s.offerByte b true).eng
  | .endBeat _ => (s.offerNoByte true).eng
  | .nullBeat _ => (s.offerNoByte false).eng

theorem State.offerCommand_eq (s : State) (op : Op) (ut : Bool) (f : Word) :
    s.offerCommand op ut f = s.setEng (s.offerCommand op ut f).eng := by
  unfold State.offerCommand; split <;> rfl

theorem State.offerByte_eq (s : State) (b : Byte) (l : Bool) :
    s.offerByte b l = s.setEng (s.offerByte b l).eng := by
  unfold State.offerByte; split <;> rfl

theorem State.offerNoByte_eq (s : State) (l : Bool) :
    s.offerNoByte l = s.setEng (s.offerNoByte l).eng := by
  unfold State.offerNoByte; split <;> rfl

/-- Everything a command on its port can do: it is accepted or it waits. -/
theorem State.offerCommand_cases (s : State) (op : Op) (ut : Bool) (f : Word) :
    (s.cmdReady = true ∧ s.offerCommand op ut f = s.setEng (s.eng.accept op ut f)) ∨
    (s.cmdReady = false ∧ s.offerCommand op ut f = s) := by
  unfold State.offerCommand; cases s.cmdReady <;> simp

/-- Everything a byte beat on its port can do: it is taken or it waits. -/
theorem State.offerByte_cases (s : State) (b : Byte) (l : Bool) :
    (s.inReady = true ∧ s.offerByte b l = s.setEng (s.eng.takeByte s.gen.tbl b l)) ∨
    (s.inReady = false ∧ s.offerByte b l = s) := by
  unfold State.offerByte; cases s.inReady <;> simp

/-- Everything a beat without a byte can do: it is taken or it waits. -/
theorem State.offerNoByte_cases (s : State) (l : Bool) :
    (s.inReady = true ∧ s.offerNoByte l = s.setEng (s.eng.takeNoByte l)) ∨
    (s.inReady = false ∧ s.offerNoByte l = s) := by
  unfold State.offerNoByte; cases s.inReady <;> simp

/-- Every instruction answers a next state, and changes the engine alone. -/
theorem exec_eq (i : Instr) (s : State) : exec i s = .next (s.setEng (engineAfter i s)) := by
  cases i <;>
    first
      | exact congrArg Host.Outcome.next (s.offerCommand_eq _ _ _)
      | exact congrArg Host.Outcome.next (s.offerByte_eq _ _)
      | exact congrArg Host.Outcome.next (s.offerNoByte_eq _)

/-- What the engine's own action leaves: it changes the engine alone. -/
theorem State.ownEdge_eq (s : State) : s.ownEdge = s.setEng s.ownEdge.eng := by
  unfold State.ownEdge
  cases s.eng.fsm <;> first | rfl | (cases s.host.pins.resReady <;> rfl)

/-- The offers the host owes after an edge are those the edge left waiting (spec R210). -/
theorem State.hostAdvance_held (s : State) :
    s.hostAdvance.heldCmd = s.waitingCmd ∧ s.hostAdvance.heldBeat = s.waitingBeat := by
  unfold State.hostAdvance; split <;> exact ⟨rfl, rfl⟩

/-- The engine after an edge that is no reset and no breach. -/
def State.nextEngine (s : State) : Engine :=
  match s.fetch with
  | some i => engineAfter i s
  | none => s.ownEdge.eng

theorem State.engineEdge_eq (s : State) : ∃ t, s.engineEdge = .next t ∧ t.eng = s.nextEngine := by
  unfold State.engineEdge State.nextEngine
  cases s.fetch with
  | some i => exact ⟨_, exec_eq i s, rfl⟩
  | none => exact ⟨_, rfl, rfl⟩

/-- A step of a host that keeps its offers, outside reset: the engine's action and the generator's step
(spec/60_exceptions.md R185). -/
theorem step_of_clean {s : State} (hr : s.host.pins.rst = false) (hc : s.cmdBreach = false)
    (hb : s.beatBreach = false) :
    step s = .next ⟨s.nextEngine, s.gen.edge s.draws, s.hostAdvance, s.draws + 1⟩ := by
  obtain ⟨t, ht, he⟩ := s.engineEdge_eq
  simp [step, clockEdge, hr, hc, hb, ht, State.finishEdge, he]

/-- A step in reset (spec/70_reset_and_hazards.md R200). -/
theorem step_of_rst {s : State} (hr : s.host.pins.rst = true) : step s = .next s.resetEdge := by
  simp [step, clockEdge, hr]

/-- Everything a step that answers a next state can be. -/
theorem step_cases {s t : State} (h : step s = .next t) :
    (s.host.pins.rst = true ∧ t = s.resetEdge) ∨
    (s.host.pins.rst = false ∧ s.cmdBreach = false ∧ s.beatBreach = false ∧
      t = ⟨s.nextEngine, s.gen.edge s.draws, s.hostAdvance, s.draws + 1⟩) := by
  cases hr : s.host.pins.rst with
  | true => exact .inl ⟨rfl, by simpa [step_of_rst hr] using h.symm⟩
  | false =>
    cases hc : s.cmdBreach with
    | true => simp [step, clockEdge, hr, hc] at h
    | false =>
      cases hb : s.beatBreach with
      | true => simp [step, clockEdge, hr, hc, hb] at h
      | false => exact .inr ⟨rfl, rfl, rfl, by simpa [step_of_clean hr hc hb] using h.symm⟩

end Sys2Proof.Machine
end

