-- ==== Sys2Proof/Laws/Observe.lean ====
section
/-! SUPPORT. How runs unfold: the shift steps, one beat of a transaction, and the cycles of a script. -/

namespace Sys2Proof.Machine

open Sys2Proof

/-- Outside SHIFT nothing is left to shift. -/
theorem Engine.drain_of_ne_shift (n : Nat) {e : Engine} (h : e.fsm ≠ .shift) : e.drain n = e := by
  cases n with
  | zero => rfl
  | succ n => unfold Engine.drain; cases hf : e.fsm <;> simp_all

/-- In SHIFT the next shift step comes first. -/
theorem Engine.drain_succ_of_shift (n : Nat) {e : Engine} (h : e.fsm = .shift) :
    e.drain (n + 1) = e.shiftStep.drain n := by
  conv_lhs => unfold Engine.drain
  rw [h]

/-- The shift steps can be split anywhere. -/
theorem Engine.drain_add (m n : Nat) (e : Engine) : e.drain (m + n) = (e.drain m).drain n := by
  induction m generalizing e with
  | zero => rw [Nat.zero_add]; rfl
  | succ m ih =>
    by_cases h : e.fsm = .shift
    · rw [Nat.succ_add, drain_succ_of_shift _ h, drain_succ_of_shift _ h, ih]
    · rw [drain_of_ne_shift _ h, drain_of_ne_shift _ h, drain_of_ne_shift _ h]

/-- One beat of a transaction always answers a next state, and changes the engine alone. -/
theorem feedBeat_eq (i : Instr) (s : State) :
    feedBeat i s = .next (s.setEng ((engineAfter i s).drain 7)) := by
  unfold feedBeat
  rw [exec_eq]
  rfl

/-- A run of a script, one cycle at a time. -/
theorem ScriptRun.run_succ {m m' : ScriptRun} (n : Nat) (seen : List (BitVec 68))
    (h : m.cycle = .next m') :
    ScriptRun.run (n + 1) m seen = ScriptRun.run n m' (m.driven.observeEdge seen) := by
  conv_lhs => unfold ScriptRun.run
  rw [h]

end Sys2Proof.Machine
end

