-- ==== Sys2Proof/Laws/PerInstr.lean ====
section
/-! SUPPORT. Statements about every instruction as syntax, one lemma per constructor. -/

namespace Sys2Proof.Laws.EncodeFits

open Sys2Proof

/-- The instruction's word fits its port (spec/30_encoding.md R72, R73), and the instruction is well
formed (R79). -/
def Statement (i : Instr) : Prop := i.wellFormed = true ∧ (encode i).wellFormed = true

theorem cmd_fits (w : BitVec 35) : (PortWord.mk .cmd w.toNat).wellFormed = true :=
  decide_eq_true w.isLt

theorem beat_fits (w : BitVec 10) : (PortWord.mk .data w.toNat).wellFormed = true :=
  decide_eq_true w.isLt

theorem crcT (f : Word) : Statement (.crcT f) := ⟨rfl, cmd_fits _⟩
theorem crcD (f : Word) : Statement (.crcD f) := ⟨rfl, cmd_fits _⟩
theorem fcsT (f : Word) : Statement (.fcsT f) := ⟨rfl, cmd_fits _⟩
theorem fcsD (f : Word) : Statement (.fcsD f) := ⟨rfl, cmd_fits _⟩
theorem valT (f : Word) : Statement (.valT f) := ⟨rfl, cmd_fits _⟩
theorem valD (f : Word) : Statement (.valD f) := ⟨rfl, cmd_fits _⟩
theorem rsvT (f : Word) : Statement (.rsvT f) := ⟨rfl, cmd_fits _⟩
theorem rsvD (f : Word) : Statement (.rsvD f) := ⟨rfl, cmd_fits _⟩
theorem byte (b : Byte) : Statement (.byte b) := ⟨rfl, beat_fits _⟩
theorem last (b : Byte) : Statement (.last b) := ⟨rfl, beat_fits _⟩
theorem endBeat (b : Byte) : Statement (.endBeat b) := ⟨rfl, beat_fits _⟩
theorem nullBeat (b : Byte) : Statement (.nullBeat b) := ⟨rfl, beat_fits _⟩

end Sys2Proof.Laws.EncodeFits
end

