-- ==== Sys2Proof/Laws/Table.lean ====
section
/-! SUPPORT. The table: what a read gives after each operation that makes or writes one (read after
write, and every other entry left alone), and that two tables with the same entries are the same data. -/

namespace Sys2Proof.Machine

open Sys2Proof

@[simp] theorem Table.read_ofEntries (f : Byte → Word) (i : Byte) : (Table.ofEntries f).read i = f i := by
  simp [Table.read, Table.ofEntries]

@[simp] theorem Table.read_free (draw : Nat) (i : Byte) :
    (Table.free draw).read i = Config.freeTblEntry draw i :=
  Table.read_ofEntries _ i

@[simp] theorem Table.read_generated (i : Byte) : Table.generated.read i = tgen i :=
  Table.read_ofEntries tgen i

/-- The generator's write, entry by entry. -/
@[simp] theorem Table.read_generate (t : Table) (lo hi : Nat) (i : Byte) :
    (t.generate lo hi).read i = if lo ≤ i.toNat ∧ i.toNat < hi then tgen i else t.read i :=
  Table.read_ofEntries _ i

/-- Tables that read alike are equal: the vector is the canonical form. -/
theorem Table.ext_read {t u : Table} (h : ∀ i : Byte, t.read i = u.read i) : t = u := by
  apply Vector.ext
  intro i hi
  have := h (BitVec.ofNat 8 i)
  simpa [Table.read, Nat.mod_eq_of_lt hi] using this

theorem Gen.nextIndex_le (g : Gen) : g.nextIndex ≤ 256 := Nat.min_le_left _ _

theorem Gen.nextIndex_toNat (g : Gen) : (BitVec.ofNat 9 g.nextIndex).toNat = g.nextIndex := by
  rw [BitVec.toNat_ofNat]
  exact Nat.mod_eq_of_lt (Nat.lt_of_le_of_lt g.nextIndex_le (by decide))

/-- Once the table is ready the generator does nothing (spec/40_table_gen.md R102, R105). -/
theorem Gen.edge_of_ready {g : Gen} (draw : Nat) (h : g.tblReady = true) : g.edge draw = g := by
  simp [Gen.edge, h]

/-- What is written after a working edge, entry by entry. -/
@[simp] theorem Gen.read_filled (g : Gen) (i : Byte) :
    g.filled.read i = if g.gidx.toNat ≤ i.toNat ∧ i.toNat < g.nextIndex then tgen i else g.fill.read i :=
  Table.read_generate _ _ _ i

/-- What a working edge of the generator leaves in each of its fields. -/
theorem Gen.edge_of_busy {g : Gen} (draw : Nat) (h : g.tblReady = false) :
    (g.edge draw).fill = g.filled ∧
    (g.edge draw).tbl = (if g.nextIndex = 256 then g.filled else Table.free draw) ∧
    (g.edge draw).gidx = BitVec.ofNat 9 g.nextIndex ∧
    (g.edge draw).tblReady = (g.nextIndex == 256) ∧
    (g.edge draw).phase = (g.phase + 256) % g.latency := by
  simp [Gen.edge, h]

@[simp] theorem Gen.edge_latency (g : Gen) (draw : Nat) : (g.edge draw).latency = g.latency := by
  unfold Gen.edge; split <;> rfl

end Sys2Proof.Machine
end

