-- ==== Sys2Proof/Machine/ScriptText.lean ====
section
/-! DEFINITION. The written form of the scripts (spec/30_encoding.md R81, R82): one statement a line, `;`
starts a comment, operands in hexadecimal `0x..`, decimal, or as a quoted ASCII character. The lexical
rules that R81 and R82 leave open are the model's choice (log 21). -/

namespace Sys2Proof.Machine

open Sys2Proof

/-- A lexical unit of a line. -/
inductive Token where
  | word (cs : List Char)
  /-- A text between double quotes. -/
  | text (cs : List Char)
  /-- A quoted ASCII character. -/
  | ascii (c : Char)
  | comma
  deriving DecidableEq, Repr

/-- The word read so far, if any, before the rest. -/
def flushWord (acc : List Char) (rest : List Token) : List Token :=
  if acc.isEmpty then rest else .word acc.reverse :: rest

/-- The units of a line up to its comment; `none` if a double quote is not closed. -/
def lexLine (cs : List Char) (inText : Bool) (acc : List Char) : Option (List Token) :=
  match inText, cs with
  | true, [] => none
  | true, '"' :: rest => (lexLine rest false []).map (.text acc.reverse :: ·)
  | true, c :: rest => lexLine rest true (c :: acc)
  | false, [] => some (flushWord acc [])
  | false, ';' :: _ => some (flushWord acc [])
  | false, '"' :: rest => (lexLine rest true []).map (flushWord acc)
  | false, '\'' :: c :: '\'' :: rest => (lexLine rest false []).map fun ts => flushWord acc (.ascii c :: ts)
  | false, ',' :: rest => (lexLine rest false []).map fun ts => flushWord acc (.comma :: ts)
  | false, c :: rest =>
    if c.isWhitespace then (lexLine rest false []).map (flushWord acc) else lexLine rest false (c :: acc)

/-- The value of a digit in the given base. -/
def digitValue (base : Nat) (c : Char) : Option Nat :=
  let v :=
    if '0' ≤ c ∧ c ≤ '9' then c.toNat - '0'.toNat
    else if 'a' ≤ c ∧ c ≤ 'f' then c.toNat - 'a'.toNat + 10
    else if 'A' ≤ c ∧ c ≤ 'F' then c.toNat - 'A'.toNat + 10
    else base
  if v < base then some v else none

/-- A number's value, read on from `acc`. -/
def digitsValue (base : Nat) (cs : List Char) (acc : Nat) : Option Nat :=
  match cs with
  | [] => some acc
  | c :: rest =>
    match digitValue base c with
    | some v => digitsValue base rest (acc * base + v)
    | none => none

/-- The code of an ASCII character. DESIGN CHOICE, safe: R81 and R82 speak of ASCII characters and codes alone,
and say nothing of any other character; a line that quotes one is no statement (log 21). -/
def asciiCode (c : Char) : Option Nat := if c.toNat < 128 then some c.toNat else none

/-- The value of an operand: `0x..`, decimal, or a quoted ASCII character. -/
def operandValue (t : Token) : Option Nat :=
  match t with
  | .ascii c => asciiCode c
  | .word ('0' :: 'x' :: c :: rest) => digitsValue 16 (c :: rest) 0
  | .word (c :: rest) => digitsValue 10 (c :: rest) 0
  | .word [] => none
  | .text _ => none
  | .comma => none

/-- The ASCII codes of a text's characters, in order (R82); `none` if one is not ASCII (log 21). -/
def asciiBytes (cs : List Char) : Option (List Byte) :=
  cs.mapM fun c => (asciiCode c).map (BitVec.ofNat 8)

/-- Bytes between commas. -/
def byteList (ts : List Token) : Option (List Byte) :=
  match ts with
  | [] => none
  | [t] => (operandValue t).map fun v => [BitVec.ofNat 8 v]
  | t :: .comma :: rest =>
    match operandValue t, byteList rest with
    | some v, some bs => some (BitVec.ofNat 8 v :: bs)
    | _, _ => none
  | _ :: _ :: _ => none

/-- The statement of a line with the given mnemonic and operands (R81, R82). -/
def lineOf (mnemonic : String) (operands : List Token) : Option Line :=
  match mnemonic, operands with
  | "CRC.T", [] => some (.stmt .crcT)
  | "CRC.D", [] => some (.stmt .crcD)
  | "FCS.T", [] => some (.stmt .fcsT)
  | "FCS.D", [] => some (.stmt .fcsD)
  | "RSV.T", [] => some (.stmt .rsvT)
  | "RSV.D", [] => some (.stmt .rsvD)
  | "VAL.T", [t] => (operandValue t).map fun v => .stmt (.valT (BitVec.ofNat 32 v))
  | "VAL.D", [t] => (operandValue t).map fun v => .stmt (.valD (BitVec.ofNat 32 v))
  | "BYTE", [t] => (operandValue t).map fun v => .stmt (.byte (BitVec.ofNat 8 v))
  | "LAST", [t] => (operandValue t).map fun v => .stmt (.last (BitVec.ofNat 8 v))
  | "END", [] => some (.stmt .endFrame)
  | "NULL", [] => some (.stmt .null)
  | "TAKE", [] => some (.stmt .take)
  | "WAIT_TBL", [] => some (.stmt .waitTbl)
  | "RESET", [] => some (.stmt .reset)
  | "CRC", [] => some .crc
  | "FCS", [] => some .fcs
  | "VAL", [t] => (operandValue t).map fun v => .val (BitVec.ofNat 32 v)
  | "FRAME", [] => some (.frame [])
  | "FRAME", [.text cs] => (asciiBytes cs).map .frame
  | "FRAME", ts => (byteList ts).map .frame
  | "CRC32", [.text cs] => (asciiBytes cs).map .crc32
  | _, _ => none

/-- A line's statements: none for a blank line or a comment; `none` if it is no statement. -/
def parseLine (cs : List Char) : Option (List Line) :=
  match lexLine cs false [] with
  | some [] => some []
  | some (.word m :: operands) => (lineOf (String.ofList m) operands).map fun l => [l]
  | _ => none

/-- The lines of a text. -/
def splitLines (cs : List Char) (acc : List Char) : List (List Char) :=
  match cs with
  | [] => [acc.reverse]
  | '\n' :: rest => acc.reverse :: splitLines rest []
  | c :: rest => splitLines rest (c :: acc)

/-- The script a text writes, pseudo-statements expanded; `none` if a line is no statement. -/
def parseScript (text : String) : Option (List Stmt) :=
  ((splitLines text.toList []).mapM parseLine).map fun ls => expandScript ls.flatten

end Sys2Proof.Machine
end

