-- ==== Sys2Proof/Tests/Slice0.lean ====
section
/-! SUPPORT. Tests, their expected values taken from spec/95_test_vectors.md or written out from the rules
named, and for every obligation with hypotheses a witness that meets them. -/

namespace Sys2Proof.Tests

open Sys2Proof Sys2Proof.Machine

/-! ## Ill-formed words (R72, R73) -/

theorem test_wf_refuses_bit_35_of_a_command : (PortWord.mk .cmd 0x800000000).wellFormed = false := by decide
theorem test_wf_refuses_bit_10_of_a_beat : (PortWord.mk .data 0x400).wellFormed = false := by decide
theorem test_wf_takes_the_widest_command : (PortWord.mk .cmd 0x7FFFFFFFF).wellFormed = true := by decide
theorem test_wf_takes_the_widest_beat : (PortWord.mk .data 0x3FF).wellFormed = true := by decide
theorem test_decode_rejects_a_wide_command :
    decode ⟨.cmd, 0x800000004⟩ = .error .widerThanCommandWord := by decide
theorem test_decode_rejects_a_wide_beat : decode ⟨.data, 0x548⟩ = .error .widerThanBeat := by decide
theorem test_table_word_rejects_a_wide_beat : decodeTableWord 16 0x548 = none := by decide

/-! ## Words written out bit by bit: rxfcs, ut, op (R72, R77) and last, keep, data (R73, R78) -/

theorem test_word_crcT :
    decode ⟨.cmd, 0b10000000000000000000000000000001100⟩ = .ok (.crcT 0x80000001) := by decide
theorem test_word_crcD :
    decode ⟨.cmd, 0b10000000000000000000000000000001000⟩ = .ok (.crcD 0x80000001) := by decide
theorem test_word_fcsT :
    decode ⟨.cmd, 0b10000000000000000000000000000001101⟩ = .ok (.fcsT 0x80000001) := by decide
theorem test_word_fcsD :
    decode ⟨.cmd, 0b10000000000000000000000000000001001⟩ = .ok (.fcsD 0x80000001) := by decide
theorem test_word_valT :
    decode ⟨.cmd, 0b10001100110101111100110110111010110⟩ = .ok (.valT 0x8CD7CDBA) := by decide
theorem test_word_valD :
    decode ⟨.cmd, 0b10001100110101111100110110111011010⟩ = .ok (.valD 0x8CD7CDBB) := by decide
theorem test_word_rsvT :
    decode ⟨.cmd, 0b10000000000000000000000000000001111⟩ = .ok (.rsvT 0x80000001) := by decide
theorem test_word_rsvD :
    decode ⟨.cmd, 0b10000000000000000000000000000001011⟩ = .ok (.rsvD 0x80000001) := by decide
theorem test_word_byte : decode ⟨.data, 0b0101001000⟩ = .ok (.byte 0x48) := by decide
theorem test_word_last : decode ⟨.data, 0b1101001111⟩ = .ok (.last 0x4F) := by decide
theorem test_word_end : decode ⟨.data, 0b1010000001⟩ = .ok (.endBeat 0x81) := by decide
theorem test_word_null : decode ⟨.data, 0b0010000001⟩ = .ok (.nullBeat 0x81) := by decide
theorem test_table_word_channels :
    decodeTableWord 8 0x4 = some (.crcT 0) ∧ decodeTableWord 40 0x466BE6DD6 = some (.valT 0x8CD7CDBA) ∧
    decodeTableWord 16 0x34F = some (.last 0x4F) := by decide

/-- No word is covered by two rows of the opcode table: two rows of one channel differ in a bit that both
masks hold. -/
theorem test_opcode_rows_are_disjoint :
    opcodeTable.Pairwise fun a b =>
      a.channel = b.channel → (a.pattern ^^^ b.pattern) &&& (a.mask &&& b.mask) ≠ 0 := by decide

/-! ## Arithmetic (V-TG-1, V-TG-4, V-TG-5, V-ENG, V-FCS) -/

theorem test_step_without_xor : polyStep 0x7FFFFFFF = 0xFFFFFFFE := by decide
theorem test_step_with_xor : polyStep 0xB7FFFFFF = 0x6B3EE249 := by decide
theorem test_tgen_0xB7 : tgen 0xB7 = 0xA379DD7B := by decide
theorem test_tgen_0x81 : tgen 0x81 = 0x6DCDFD59 := by decide
theorem test_updD_hello : updD 0xFFFFFFFF 0x48 = 0x5C86227B := by decide
theorem test_updT_hello : updT Table.generated 0xFFFFFFFF 0x48 = 0x5C86227B := by
  rw [updT, Table.read_generated]; decide
theorem test_feedback_hello : updFeedback 0xFFFFFFFF 0x48 = 0x5C86227B := by decide
theorem test_crc_of_one_zero : crcOf (regD [0x00]) = 0xB1F7404B := by decide
set_option maxRecDepth 4000 in
theorem test_crc_of_four_ff : crcOf (regD [0xFF, 0xFF, 0xFF, 0xFF]) = 0xFFFFFFFF := by decide
theorem test_fcs_of_one_zero : fcsOf 0xB1F7404B = 0x4E08BFB4 := by decide
theorem test_compare_is_exact : okFlag .val 0x8CD7CDBA 0x8CD7CDBA = true ∧
    okFlag .val 0x8CD7CDBA 0x8CD7CDBB = false ∧ okFlag .crc 0x8CD7CDBA 0x8CD7CDBA = false := by decide
theorem test_wire_order : fcsBytes .msbFirst 0x8CD7CDBA = [0x8C, 0xD7, 0xCD, 0xBA] ∧
    fcsOfBytes .lsbFirst 0xBA 0xCD 0xD7 0x8C = 0x8CD7CDBA := by decide

/-! ## Small states -/

/-- The machine after reset with a ROM table, so that commands are accepted at once (R104). -/
def rom : State := State.resetWith 0

/-- An engine state on a complete table, with the given input ports. -/
def on (e : Engine) (p : Pins) : State := (rom.setEng e).setPins p

/-- The engine in FRAME after the accept of a command. -/
def framed (op : Op) (ut : Bool) : Engine := Engine.reset.accept op ut 0x8CD7CDBA

/-- Ports that offer a command word. -/
def offersCmd (w : BitVec 35) : Pins := { Pins.quiet with cmdValid := true, cmdWord := w }

/-- Ports that offer a beat. -/
def offersBeat (w : BitVec 10) : Pins := { Pins.quiet with inValid := true, inBeat := w }

/-- Ports on which the host takes a result. -/
def takes : Pins := { Pins.quiet with resReady := true }

/-- Ports in reset. -/
def inReset : Pins := { Pins.quiet with rst := true }

/-- The engine in SHIFT with one step to do, the byte being the last or not. -/
def lastShift (plast : Bool) : Engine := { (framed .crc false).directByte 0x48 plast with cnt := 1 }

/-- The engine of an outcome. -/
def engOf (o : Host.Outcome State Fault Refusal) : Option Engine :=
  match o with
  | .next t => some t.eng
  | .fault _ => none
  | .refused _ => none

theorem gen_ok_reset (latency : Nat) : (Gen.reset latency 0).Ok := by
  by_cases h : latency = 0
  · subst h
    exact ⟨by simp [Gen.reset], fun i hi => by simp [Gen.reset] at hi,
      fun _ i => by simp [Gen.reset], by simp [Gen.reset], by simp [Gen.reset]⟩
  · exact ⟨by simp [Gen.reset], fun i hi => by simp [Gen.reset] at hi, by simp [Gen.reset, h],
      by simp [Gen.reset]; omega, by simp [Gen.reset, h]⟩

theorem on_inv {e : Engine} (h : e.Ok) (p : Pins) : (on e p).Inv :=
  ⟨h, gen_ok_reset 0, fun _ => rfl⟩

/-! ## One step of each instruction -/

theorem test_crcT_is_accepted :
    engOf (exec (.crcT 0x80000001) (on { Engine.reset with r := 0 } (offersCmd 0x40000000C))) =
      some { Engine.reset with cmd := ⟨.crc, true⟩, rxfcs := 0x80000001, fsm := .frame } := by decide
theorem test_crcT_waits_for_the_table :
    exec (.crcT 0) State.reset = .next State.reset := rfl
theorem test_crcD_is_accepted :
    engOf (exec (.crcD 0) (on { Engine.reset with r := 0 } (offersCmd 0))) =
      some { Engine.reset with fsm := .frame } := by decide
theorem test_crcD_waits_for_the_table : exec (.crcD 0) State.reset = .next State.reset := rfl
theorem test_fcsT_is_accepted :
    engOf (exec (.fcsT 7) (on Engine.reset (offersCmd 0x3D))) =
      some { Engine.reset with cmd := ⟨.fcs, true⟩, rxfcs := 7, fsm := .frame } := by decide
theorem test_fcsD_is_accepted :
    engOf (exec (.fcsD 7) (on Engine.reset (offersCmd 0x39))) =
      some { Engine.reset with cmd := ⟨.fcs, false⟩, rxfcs := 7, fsm := .frame } := by decide
theorem test_valT_is_accepted :
    engOf (exec (.valT 0x8CD7CDBA) (on Engine.reset (offersCmd 0x466BE6DD6))) =
      some { Engine.reset with cmd := ⟨.val, true⟩, rxfcs := 0x8CD7CDBA, fsm := .frame } := by decide
theorem test_valD_is_accepted :
    engOf (exec (.valD 0x8CD7CDBB) (on Engine.reset (offersCmd 0x466BE6DDA))) =
      some { Engine.reset with cmd := ⟨.val, false⟩, rxfcs := 0x8CD7CDBB, fsm := .frame } := by decide
theorem test_valD_waits_in_done :
    engOf (exec (.valD 0x8CD7CDBB) (on { Engine.reset with fsm := .done, resValid := true } takes)) =
      some { Engine.reset with fsm := .done, resValid := true } := by decide
theorem test_rsvT_is_accepted :
    engOf (exec (.rsvT 0) (on Engine.reset (offersCmd 0x7))) =
      some { Engine.reset with cmd := ⟨.rsv, true⟩, fsm := .frame } := by decide
theorem test_rsvD_is_accepted :
    engOf (exec (.rsvD 0) (on Engine.reset (offersCmd 0x3))) =
      some { Engine.reset with cmd := ⟨.rsv, false⟩, fsm := .frame } := by decide

/-- V-ENG-1. -/
theorem test_byte_table : engOf (exec (.byte 0x48) (on (framed .crc true) (offersBeat 0x148))) =
    some { framed .crc true with r := 0x5C86227B } := by
  have : updT (Gen.reset 0 0).tbl 0xFFFFFFFF 0x48 = 0x5C86227B := test_updT_hello
  show some { framed .crc true with r := updT (Gen.reset 0 0).tbl 0xFFFFFFFF 0x48 } = _
  rw [this]

/-- V-ENG-2, its first step. -/
theorem test_byte_direct : engOf (exec (.byte 0x48) (on (framed .crc false) (offersBeat 0x148))) =
    some { framed .crc false with r := 0x6B3EE249, cnt := 7, plast := false, fsm := .shift } := by decide

/-- R129's worked example, for FCS.T: the register before "O" is 0x10CC0FDB. -/
theorem test_last_table :
    engOf (exec (.last 0x4F) (on { framed .fcs true with r := 0x10CC0FDB } (offersBeat 0x34F))) =
      some { framed .fcs true with
        r := 0x8CD7CDBA, res := ⟨.fcs, false, false, 0x73283245, 0x8CD7CDBA⟩, resValid := true
        fsm := .done } := by
  have : updT (Gen.reset 0 0).tbl 0x10CC0FDB 0x4F = 0x8CD7CDBA := by
    rw [show (Gen.reset 0 0).tbl = Table.generated from rfl, updT, Table.read_generated]; decide
  show some (({ framed .fcs true with r := updT (Gen.reset 0 0).tbl 0x10CC0FDB 0x4F } : Engine).finalize
    (updT (Gen.reset 0 0).tbl 0x10CC0FDB 0x4F)) = _
  rw [this]; decide

theorem test_last_direct_has_no_result_yet :
    engOf (exec (.last 0x48) (on (framed .crc false) (offersBeat 0x348))) =
      some { framed .crc false with r := 0x6B3EE249, cnt := 7, plast := true, fsm := .shift } := by decide

theorem test_end_of_an_empty_frame :
    engOf (exec (.endBeat 0x55) (on (framed .val false) (offersBeat 0x255))) =
      some { framed .val false with
        res := ⟨.val, false, false, 0x00000000, 0xFFFFFFFF⟩, resValid := true, fsm := .done } := by decide
theorem test_end_of_a_reserved_frame :
    (engOf (exec (.endBeat 0) (on (framed .rsv true) (offersBeat 0x200)))).map (·.res.pack) =
      some 0x00000000000000007 := by decide
theorem test_null_changes_nothing :
    engOf (exec (.nullBeat 0x55) (on (framed .val false) (offersBeat 0x055))) =
      some (framed .val false) := by decide
theorem test_null_waits_in_shift :
    engOf (exec (.nullBeat 0) (on (lastShift true) (offersBeat 0))) = some (lastShift true) := by decide

/-! ## The edge -/

/-- R169 and the opcode table: placed words run from the reset state. -/
theorem test_placed_command_runs :
    engOf (step (State.reset.withFetchWord 40 0x466BE6DDA)) =
      some { Engine.reset with cmd := ⟨.val, false⟩, rxfcs := 0x8CD7CDBB, fsm := .frame } := by decide
theorem test_placed_beat_runs :
    engOf (step (State.reset.withFetchWord 16 0x200)) =
      some { Engine.reset with
        res := ⟨.crc, false, false, 0, 0xFFFFFFFF⟩, resValid := true, fsm := .done } := by decide

/-- The eighth step of V-ENG-2: 0xAC239FE6 gives 0x5C86227B, and FINALIZE as the byte is the last. -/
theorem test_eighth_step :
    engOf (step (on { lastShift true with r := 0xAC239FE6 } Pins.quiet)) =
      some { framed .crc false with
        r := 0x5C86227B, res := ⟨.crc, false, false, 0xA379DD84, 0x5C86227B⟩, resValid := true
        fsm := .done } := by decide
theorem test_result_is_taken :
    engOf (step (on { Engine.reset with fsm := .done, resValid := true } takes)) = some Engine.reset := by
  decide
theorem test_result_is_held :
    engOf (step (on { Engine.reset with fsm := .done, resValid := true } Pins.quiet)) =
      some { Engine.reset with fsm := .done, resValid := true } := by decide
theorem test_reset_aborts :
    engOf (step (on (lastShift true) { inReset with inValid := true, inBeat := 0x148 })) =
      some Engine.reset := by decide

/-- A beat offered during SHIFT must stay (R208, R210): changing it is a breach. -/
theorem test_changed_beat_is_refused :
    step { on (lastShift true) (offersBeat 0x149) with
      host := ⟨offersBeat 0x149, [], none, some 0x148⟩ } = .refused .beatOfferBroken := rfl
theorem test_dropped_command_is_refused :
    step { on (lastShift true) Pins.quiet with
      host := ⟨Pins.quiet, [], some 0x4, none⟩ } = .refused .commandOfferBroken := rfl

/-- The generator's first edge (R102, V-TG-6) writes entry 0, counts, and is not ready; what TBL holds stays
open (R31). -/
theorem test_generator_first_edge :
    ((Gen.reset 256 0).edge 1).gidx = 1 ∧ ((Gen.reset 256 0).edge 1).tblReady = false ∧
    ((Gen.reset 256 0).edge 1).fill.read 0 = 0 ∧
    ((Gen.reset 256 0).edge 1).tbl.read 0 = Config.freeTblEntry 1 0 := by
  refine ⟨by decide, by decide, ?_, ?_⟩
  · rw [(Gen.edge_of_busy (g := Gen.reset 256 0) 1 rfl).1, Gen.read_filled]; decide
  · rw [(Gen.edge_of_busy (g := Gen.reset 256 0) 1 rfl).2.1, if_neg (by decide), Table.read_free]

/-- The reference generator with one entry to write. -/
def lastEntry : Gen := { Gen.reset 256 0 with gidx := 255, fill := Table.generated }

/-- The write of entry 255 makes the table ready (R102), and an entry of it TGEN's: R107's example. -/
theorem test_generator_last_edge :
    (lastEntry.edge 1).gidx = 256 ∧ (lastEntry.edge 1).tblReady = true ∧
    (lastEntry.edge 1).tbl.read 0xB7 = 0xA379DD7B := by
  refine ⟨by decide, by decide, ?_⟩
  rw [(Gen.edge_of_busy (g := lastEntry) 1 rfl).2.1, if_pos (by decide), Gen.read_filled]
  show (if _ then tgen 0xB7 else Table.generated.read 0xB7) = _
  rw [Table.read_generated, ite_self]; decide

/-! ## Scripts (R81, R82, and the first lines of the programs of spec/95) -/

theorem test_frame_expansion :
    (Line.crc32 [0x48, 0x49]).expand = [.crcT, .byte 0x48, .last 0x49, .take] ∧
    (Line.frame []).expand = [.endFrame] := by decide
theorem test_parse_operands :
    parseScript "VAL.D 0x8CD7CDBB ; received\nBYTE 'H'\nLAST 79\nTAKE" =
      some [.valD 0x8CD7CDBB, .byte 0x48, .last 0x4F, .take] := by decide
theorem test_parse_text :
    parseScript "CRC32 \"HI\"" = some [.crcT, .byte 0x48, .last 0x49, .take] := by decide
/-- A character outside ASCII makes the line no statement (the model's choice, log 21). -/
theorem test_parse_refuses_a_character_outside_ascii :
    parseScript "BYTE 'é'" = none ∧ parseScript "FRAME \"é\"" = none := by decide
theorem test_parse_refuses_an_unknown_statement : parseScript "CRC.X" = none := by decide

/-! ## Witnesses: for each statement with hypotheses, states and operands that meet all of them, at the
boundary values where its clauses meet -/

theorem frame_ok (op : Op) (ut : Bool) : (framed op ut).Ok := by cases op <;> cases ut <;> decide

/-- EncodeUndoesDecode, OpcodeTableSelectsTheInstruction. -/
theorem witness_well_formed_words :
    (PortWord.mk .cmd (2 ^ 35 - 1)).wellFormed = true ∧ (PortWord.mk .data (2 ^ 10 - 1)).wellFormed = true ∧
    (PortWord.mk .cmd 0).wellFormed = true := by decide

/-- TooWideWordsAreRejected: the first number of each clause, and the last one below it. -/
theorem witness_too_wide_words :
    2 ^ 35 ≤ 34359738368 ∧ 2 ^ 10 ≤ 1024 ∧ decode ⟨.cmd, 34359738367⟩ = .ok (.rsvT 0xFFFFFFFF) ∧
    decode ⟨.data, 1023⟩ = .ok (.last 0xFF) := by decide

/-- StepRunsTheDecodedInstruction: each of its two cases. -/
theorem witness_decoded_instruction :
    (on Engine.reset (offersCmd 4)).Clean ∧ (on Engine.reset (offersCmd 4)).eng.fsm = .idle ∧
    (on Engine.reset (offersCmd 4)).host.pins.cmdValid = true ∧
    decodeCmd (on Engine.reset (offersCmd 4)).host.pins.cmdWord = .crcT 0 ∧
    (on (framed .crc true) (offersBeat 0x148)).Clean ∧
    (on (framed .crc true) (offersBeat 0x148)).eng.fsm = .frame ∧
    (on (framed .crc true) (offersBeat 0x148)).host.pins.inValid = true ∧
    decodeBeat (on (framed .crc true) (offersBeat 0x148)).host.pins.inBeat = .byte 0x48 := by decide

/-- PlacedWordRunsNext: a command and a beat. -/
theorem witness_table_words :
    decodeTableWord 8 7 = some (.rsvT 0) ∧ decodeTableWord 16 0 = some (.nullBeat 0) := by decide

/-- ResetLeavesTheListedValues: both kinds of realisation. -/
theorem witness_latencies : (0 : Nat) = 0 ∧ (256 : Nat) ≠ 0 := by decide

/-- ResetEdgeFromAnyState, with a host that holds `rst` for two edges, of a ROM and of the reference. -/
theorem witness_reset_edge (latency : Nat) :
    ∃ s t t' : State, s.host.pins.rst = true ∧ s.gen.latency = latency ∧ step s = .next t ∧
      t.host.pins.rst = true ∧ step t = .next t' :=
  ⟨(State.resetWith latency).setHost ⟨inReset, [inReset], none, none⟩, _, _, rfl, rfl, rfl, rfl, rfl⟩

/-- UnspecifiedValuesAreFreeDraws: in reset, and before the table is ready. -/
theorem witness_unspecified_values :
    (256 : Nat) ≠ 0 ∧ (State.reset.setPins inReset).host.pins.rst = true ∧
    (State.reset.setPins inReset).gen.latency ≠ 0 ∧ State.reset.gen.tblReady = false ∧
    (∃ t, step (State.reset.setPins inReset) = .next t) ∧ State.reset.host.pins.rst = false ∧
    (∃ t, step State.reset = .next t ∧ t.gen.tblReady = false) :=
  ⟨by decide, rfl, by decide, rfl, ⟨_, rfl⟩, rfl, ⟨_, step_of_clean rfl rfl rfl, by decide⟩⟩

/-- StepKeepsTheInvariant: a step in each engine state. -/
theorem witness_invariant :
    (∃ t, (on Engine.reset (offersCmd 4)).Inv ∧ step (on Engine.reset (offersCmd 4)) = .next t) ∧
    (∃ t, (on (framed .crc false) (offersBeat 0x348)).Inv ∧
      step (on (framed .crc false) (offersBeat 0x348)) = .next t) ∧
    (∃ t, (on (lastShift true) Pins.quiet).Inv ∧ step (on (lastShift true) Pins.quiet) = .next t) ∧
    (∃ t, (on ((framed .val true).finalize 0xFFFFFFFF) takes).Inv ∧
      step (on ((framed .val true).finalize 0xFFFFFFFF) takes) = .next t) :=
  ⟨⟨_, on_inv (by decide) _, rfl⟩, ⟨_, on_inv (by decide) _, rfl⟩, ⟨_, on_inv (by decide) _, rfl⟩,
    ⟨_, on_inv (by decide) _, rfl⟩⟩

/-- CoreNeverStops: both cases of its second half. -/
theorem witness_core_steps :
    (on Engine.reset inReset).host.pins.rst = true ∧ (on Engine.reset Pins.quiet).Clean := by decide

/-- BrokenOffersAreRefused: a dropped and a changed word on each port. -/
theorem witness_broken_offers :
    (∃ s : State, s.host.pins.rst = false ∧ s.host.heldCmd = some 4 ∧ s.host.pins.cmdValid = false) ∧
    (∃ s : State, s.host.pins.rst = false ∧ s.host.heldCmd = some 4 ∧ s.host.pins.cmdWord ≠ 4) ∧
    (∃ s : State, s.host.pins.rst = false ∧ s.cmdBreach = false ∧ s.host.heldBeat = some 0x148 ∧
      s.host.pins.inValid = false) ∧
    (∃ s : State, s.host.pins.rst = false ∧ s.cmdBreach = false ∧ s.host.heldBeat = some 0x148 ∧
      s.host.pins.inBeat ≠ 0x148) :=
  ⟨⟨rom.setHost ⟨Pins.quiet, [], some 4, none⟩, rfl, rfl, rfl⟩,
    ⟨rom.setHost ⟨offersCmd 5, [], some 4, none⟩, rfl, rfl, by decide⟩,
    ⟨rom.setHost ⟨Pins.quiet, [], none, some 0x148⟩, rfl, rfl, rfl, rfl⟩,
    ⟨rom.setHost ⟨offersBeat 0x149, [], none, some 0x148⟩, rfl, rfl, rfl, by decide⟩⟩

/-- WaitingOffersAreKept: a command before the table is ready, a beat before its command. -/
theorem witness_waiting_offers :
    (∃ t, step (State.reset.setPins (offersCmd 4)) = .next t) ∧
    (State.reset.setPins (offersCmd 4)).host.pins.cmdValid = true ∧
    (State.reset.setPins (offersCmd 4)).cmdReady = false ∧
    (State.reset.setPins (offersCmd 4)).host.queue = [] ∧
    (∃ t, step (State.reset.setPins (offersBeat 0x148)) = .next t) ∧
    (State.reset.setPins (offersBeat 0x148)).host.pins.inValid = true ∧
    (State.reset.setPins (offersBeat 0x148)).inReady = false ∧
    (State.reset.setPins (offersBeat 0x148)).host.queue = [] :=
  ⟨⟨_, rfl⟩, rfl, rfl, rfl, ⟨_, rfl⟩, rfl, rfl, rfl⟩

/-- ReferenceGeneratorWritesOneEntry: the first entry, the last entry, and a ready table. -/
theorem witness_generator :
    (Gen.reset 256 0).Ok ∧ (Gen.reset 256 0).latency = 256 ∧ (Gen.reset 256 0).tblReady = false ∧
    lastEntry.Ok ∧ lastEntry.latency = 256 ∧ lastEntry.tblReady = false ∧ lastEntry.gidx = 255 ∧
    (Gen.reset 0 0).tblReady = true ∧
    (∃ t, State.reset.host.pins.rst = false ∧ step State.reset = .next t) :=
  ⟨gen_ok_reset 256, rfl, rfl,
    ⟨by decide, fun i _ => Table.read_generated i, by decide, by decide, by decide⟩,
    rfl, rfl, rfl, rfl, ⟨_, rfl, rfl⟩⟩

/-- TableIsReadyAfterItsLatency: the first edge count of its second clause, for a ROM and the reference. -/
theorem witness_latency_reached : (0 : Nat) ≤ 0 ∧ (256 : Nat) ≤ 256 := by decide

/-- The reference generator when its table is ready. -/
def fullTable : Gen :=
  { Gen.reset 256 0 with gidx := 256, tblReady := true, tbl := Table.generated, fill := Table.generated }

theorem full_table_ok : fullTable.Ok :=
  ⟨by decide, fun i _ => Table.read_generated i, fun _ i => Table.read_generated i, by decide, by decide⟩

/-- ReadyTableIsCompleteAndImmutable: the last entry's write, a ready table, and a reset of a ready one. -/
theorem witness_ready_table :
    (∃ s t : State, s.Inv ∧ step s = .next t ∧ s.gen.tblReady = false ∧ t.gen.tblReady = true) ∧
    (∃ s t : State, s.Inv ∧ step s = .next t ∧ s.host.pins.rst = false ∧ s.gen.tblReady = true) ∧
    (∃ s t : State, s.Inv ∧ step s = .next t ∧ s.gen.tblReady = true ∧ t.gen.tblReady = false) :=
  ⟨⟨rom.setGen lastEntry, _, ⟨by decide, witness_generator.2.2.2.1, fun h => absurd rfl h⟩,
      step_of_clean rfl rfl rfl, rfl, test_generator_last_edge.2.1⟩,
    ⟨on Engine.reset Pins.quiet, _, on_inv (by decide) _, step_of_clean rfl rfl rfl, rfl, rfl⟩,
    ⟨(rom.setGen fullTable).setPins inReset, _,
      ⟨by decide, full_table_ok, fun h => absurd rfl h⟩, step_of_rst rfl, rfl, rfl⟩⟩

/-- EngineReadsGeneratedEntries. -/
theorem witness_engine_reads :
    (on (framed .crc true) (offersBeat 0x148)).Inv ∧ (on (framed .crc true) (offersBeat 0x148)).eng.fsm = .frame :=
  ⟨on_inv (frame_ok _ _) _, rfl⟩

/-- OutputPortEquations and DebugReadGivesTheTable: with and without reset, the table ready or not. -/
theorem witness_ports :
    (on Engine.reset { Pins.quiet with tblRdAddr := 0xB7 }).Inv ∧
    (on Engine.reset { Pins.quiet with tblRdAddr := 0xB7 }).host.pins.rst = false ∧
    (on Engine.reset { Pins.quiet with tblRdAddr := 0xB7 }).gen.tblReady = true ∧
    (on Engine.reset { Pins.quiet with tblRdAddr := 0xB7 }).host.pins.tblRdAddr = 0xB7 ∧
    (on Engine.reset inReset).host.pins.rst = true ∧
    (∃ t, step (on Engine.reset { Pins.quiet with tblRdAddr := 0xB7 }) = .next t) :=
  ⟨on_inv (by decide) _, rfl, rfl, rfl, rfl, ⟨_, rfl⟩⟩

/-- OneTransferPerEdge: a state in which a transfer does happen. -/
theorem witness_transfer :
    (on Engine.reset (offersCmd 4)).Inv ∧ (on Engine.reset (offersCmd 4)).acceptCmd = true :=
  ⟨on_inv (by decide) _, rfl⟩

/-- FsmTransitions: each of its clauses. -/
theorem witness_transitions :
    (∃ t, (on (lastShift true) inReset).Inv ∧ step (on (lastShift true) inReset) = .next t) ∧
    (∃ t, (on Engine.reset (offersCmd 4)).Inv ∧ step (on Engine.reset (offersCmd 4)) = .next t ∧
      (on Engine.reset (offersCmd 4)).acceptCmd = true) ∧
    (∃ t, (on (framed .crc true) Pins.quiet).Inv ∧ step (on (framed .crc true) Pins.quiet) = .next t ∧
      (on (framed .crc true) Pins.quiet).acceptIn = false) ∧
    (∃ t, (on (framed .crc false) (offersBeat 0x148)).Inv ∧
      step (on (framed .crc false) (offersBeat 0x148)) = .next t ∧
      (on (framed .crc false) (offersBeat 0x148)).acceptIn = true ∧ (0x148#10).getLsbD 8 = true ∧
      (framed .crc false).cmd.ut = false ∧ (framed .crc false).cmd.op ≠ .rsv) ∧
    (∃ t, (on (framed .rsv false) (offersBeat 0x348)).Inv ∧
      step (on (framed .rsv false) (offersBeat 0x348)) = .next t ∧
      (on (framed .rsv false) (offersBeat 0x348)).acceptIn = true ∧ (framed .rsv false).cmd.op = .rsv) ∧
    (∃ t, (on (framed .crc false) (offersBeat 0x200)).Inv ∧
      step (on (framed .crc false) (offersBeat 0x200)) = .next t ∧ (0x200#10).getLsbD 8 = false) ∧
    (∃ t, (on (lastShift false) Pins.quiet).Inv ∧ step (on (lastShift false) Pins.quiet) = .next t ∧
      (lastShift false).fsm = .shift) ∧
    (∃ t, (on ((framed .val true).finalize 0xFFFFFFFF) takes).Inv ∧
      step (on ((framed .val true).finalize 0xFFFFFFFF) takes) = .next t ∧
      (on ((framed .val true).finalize 0xFFFFFFFF) takes).acceptRes = true) :=
  ⟨⟨_, on_inv (by decide) _, rfl⟩, ⟨_, on_inv (by decide) _, rfl, rfl⟩, ⟨_, on_inv (frame_ok _ _) _, rfl, rfl⟩,
    ⟨_, on_inv (frame_ok _ _) _, rfl, rfl, by decide, rfl, by decide⟩,
    ⟨_, on_inv (frame_ok _ _) _, rfl, rfl, rfl⟩, ⟨_, on_inv (frame_ok _ _) _, rfl, by decide⟩,
    ⟨_, on_inv (by decide) _, rfl, rfl⟩, ⟨_, on_inv (by decide) _, rfl, rfl⟩⟩

/-- IdleHoldsEveryRegister, with a host that offers a beat too early. -/
theorem witness_idle :
    (on Engine.reset (offersBeat 0x148)).Clean ∧ (on Engine.reset (offersBeat 0x148)).eng.fsm = .idle ∧
    (on Engine.reset (offersBeat 0x148)).host.pins.cmdValid = false ∧
    (on Engine.reset (offersBeat 0x148)).gen.tblReady = true ∧
    State.reset.Clean ∧ State.reset.gen.tblReady = false := by decide

/-- FrameHoldsWhileNoBeatIsOffered, with a host that offers a command too early. -/
theorem witness_frame_waits :
    (on (framed .crc false) (offersCmd 4)).Clean ∧ (on (framed .crc false) (offersCmd 4)).eng.fsm = .frame ∧
    (on (framed .crc false) (offersCmd 4)).host.pins.inValid = false ∧
    (on (framed .crc false) (offersCmd 4)).gen.tblReady = true := by decide

/-- CommandAcceptLatchesTheWord, CommandsAreAccepted, and every statement about a state open for a command:
EmptyFrameGivesZero, WorkedEncodings, CorruptionScenario. -/
theorem witness_open_for_command :
    (on Engine.reset (offersCmd 0x7FFFFFFFF)).OpenForCommand ∧ (on Engine.reset (offersCmd 0x7FFFFFFFF)).Inv ∧
    (on Engine.reset (offersCmd 0x7FFFFFFFF)).acceptCmd = true ∧
    (on Engine.reset (offersCmd 0x7FFFFFFFF)).cmdBreach = false ∧
    (on Engine.reset (offersCmd 0x7FFFFFFFF)).beatBreach = false ∧
    commandOp (.valD 0) = some .val ∧ Op.val ≠ .rsv :=
  ⟨by decide, on_inv (by decide) _, rfl, rfl, rfl, rfl, by decide⟩

/-- CommandsWaitUntilReady: each of its three reasons alone. -/
theorem witness_command_waits :
    (on Engine.reset inReset).host.pins.rst = true ∧ (on Engine.reset inReset).gen.tblReady = true ∧
    State.reset.gen.tblReady = false ∧ State.reset.eng.fsm = .idle ∧
    (on (framed .crc true) (offersCmd 4)).eng.fsm ≠ .idle ∧
    (on (framed .crc true) (offersCmd 4)).gen.tblReady = true := by decide

/-- CommandFrame. -/
theorem witness_command_frame :
    commandOp (.valT 5) = some .val ∧ ∃ t, exec (.valT 5) (on Engine.reset (offersCmd 0x2E)) = .next t :=
  ⟨rfl, _, rfl⟩

/-- The statements about a state open for a beat: TablePathTakesAByte, DirectPathTakesAByte,
ReservedOpTakesEveryBeat, EndFinalisesPerOp, EndAfterByteEqualsLast, NullBeatsLeaveNoTrace. -/
theorem witness_open_for_beat :
    (on (framed .val true) (offersBeat 0x148)).OpenForBeat ∧ (framed .val true).cmd.ut = true ∧
    (framed .val true).cmd.op ≠ .rsv ∧ (on (framed .val true) (offersBeat 0x148)).gen.tbl.Complete ∧
    (on (framed .val false) (offersBeat 0x148)).OpenForBeat ∧ (framed .val false).cmd.ut = false ∧
    (framed .val false).plast = false ∧ (framed .val false).fsm ≠ .shift ∧
    (on (framed .rsv true) (offersBeat 0x148)).OpenForBeat ∧ (framed .rsv true).cmd.op = .rsv :=
  ⟨by decide, rfl, by decide, fun i => Table.read_generated i, by decide, rfl, rfl, by decide, by decide, rfl⟩

/-- BeatsWaitOutsideFrame: each of its two reasons alone. -/
theorem witness_beat_waits :
    (on (framed .crc true) inReset).host.pins.rst = true ∧ (on (framed .crc true) inReset).eng.fsm = .frame ∧
    (on (lastShift true) Pins.quiet).eng.fsm ≠ .frame ∧
    (on (lastShift true) Pins.quiet).host.pins.rst = false := by decide

/-- BeatFrame: a next state of each beat, for each kind of command. -/
theorem witness_beat_frame :
    (∃ t, exec (.byte 1) (on (framed .crc true) (offersBeat 0x101)) = .next t) ∧
    (∃ t, exec (.last 1) (on (framed .crc false) (offersBeat 0x301)) = .next t) ∧
    (∃ t, exec (.endBeat 1) (on (framed .rsv false) (offersBeat 0x201)) = .next t) ∧
    (∃ t, exec (.nullBeat 1) (on (framed .val false) (offersBeat 0x001)) = .next t) ∧
    (framed .crc true).cmd.ut = true ∧ (framed .crc false).cmd.ut = false ∧
    (framed .crc false).cmd.op ≠ .rsv ∧ (framed .rsv false).cmd.op = .rsv :=
  ⟨⟨_, rfl⟩, ⟨_, rfl⟩, ⟨_, rfl⟩, ⟨_, rfl⟩, rfl, rfl, by decide, rfl⟩

/-- ShiftCycle: more steps to do, the last step of a middle byte, the last step of the last byte. -/
theorem witness_shift_cycle :
    ((on ((framed .crc false).directByte 0x48 true) Pins.quiet).Clean ∧
      (on ((framed .crc false).directByte 0x48 true) Pins.quiet).Inv ∧
      ((framed .crc false).directByte 0x48 true).fsm = .shift ∧
      1 < ((framed .crc false).directByte 0x48 true).cnt) ∧
    ((on (lastShift false) Pins.quiet).Clean ∧ (on (lastShift false) Pins.quiet).Inv ∧
      (lastShift false).fsm = .shift ∧ ¬ 1 < (lastShift false).cnt ∧ (lastShift false).plast = false) ∧
    ((on (lastShift true) Pins.quiet).Clean ∧ (on (lastShift true) Pins.quiet).Inv ∧
      (lastShift true).fsm = .shift ∧ ¬ 1 < (lastShift true).cnt ∧ (lastShift true).plast = true) :=
  ⟨⟨by decide, on_inv (by decide) _, rfl, by decide⟩,
    ⟨by decide, on_inv (by decide) _, rfl, by decide, rfl⟩,
    ⟨by decide, on_inv (by decide) _, rfl, by decide, rfl⟩⟩

/-- ResultIsHeldUntilTaken: taken and held. -/
theorem witness_result :
    (on ((framed .val true).finalize 0xFFFFFFFF) takes).Clean ∧
    (on ((framed .val true).finalize 0xFFFFFFFF) takes).Inv ∧
    (on ((framed .val true).finalize 0xFFFFFFFF) takes).eng.fsm = .done ∧
    (on ((framed .val true).finalize 0xFFFFFFFF) Pins.quiet).Clean ∧
    (on ((framed .val true).finalize 0xFFFFFFFF) Pins.quiet).Inv :=
  ⟨by decide, on_inv (by decide) _, rfl, by decide, on_inv (by decide) _⟩

/-- EightCyclesAreOneDirectUpdate: the accept cycle and the seventh edge's eve. -/
theorem witness_shift_edges : (0 : Nat) < 7 ∧ (6 : Nat) < 7 := by decide

/-- LawsOfTheTable: two equal bytes meet the premise of its last clauses. -/
theorem witness_equal_entries : tgen 0x80 = tgen 0x80 ∧ (tgen 0xFF).extractLsb' 0 8 = 0xB4 := by decide

/-- StrategiesAgree, ResidueOfAFrameWithItsFcs. -/
theorem witness_complete_table : Table.generated.Complete := Table.read_generated

/-- The statements about whole transactions: the shortest frame, one with a NULL beat that ends in END,
and one that ends in LAST. -/
theorem witness_frames :
    isFrame [.endBeat 0] = true ∧ isFrame [.byte 0x48, .nullBeat 3, .endBeat 0] = true ∧
    isFrame [.byte 0x48, .last 0x4F] = true ∧ isFrame [] = false ∧
    frameOf [.byte 0x48, .nullBeat 3, .last 0x4F] = [0x48, 0x4F] ∧
    commandOp (.fcsD 0) = some .fcs ∧ Op.fcs ≠ .rsv := by decide

/-- ComplementLaw: a transaction that answers a next state. -/
theorem witness_transaction :
    ∃ t, transact (.fcsD 0) [.endBeat 0] (on Engine.reset (offersCmd 1)) = .next t := ⟨_, rfl⟩

/-- ValidationIsExact: the lowest and the highest flipped bit. -/
theorem witness_flipped_bits :
    (0 : Nat) < 32 ∧ (31 : Nat) < 32 ∧
    (0xFFFFFFFE : Word) = fcsOf (crcOf (regD (frameOf [.endBeat 0]))) ^^^ (1#32 <<< 0) ∧
    (0x7FFFFFFF : Word) = fcsOf (crcOf (regD (frameOf [.endBeat 0]))) ^^^ (1#32 <<< 31) := by decide

/-- ResetAbortsTheTransaction: the reset edge, and the steps after it. -/
theorem witness_abort :
    (∃ t, (on (lastShift true) inReset).host.pins.rst = true ∧ step (on (lastShift true) inReset) = .next t) ∧
    (∃ t, (on Engine.reset (offersBeat 0x148)).Inv ∧ (on Engine.reset (offersBeat 0x148)).eng.fsm = .idle ∧
      (on Engine.reset (offersBeat 0x148)).acceptCmd = false ∧
      step (on Engine.reset (offersBeat 0x148)) = .next t) :=
  ⟨⟨_, rfl, rfl⟩, ⟨_, on_inv (by decide) _, rfl, rfl, rfl⟩⟩

/-- ScriptHostsAreNeverRefused: a script whose first statement's beat waits. -/
theorem witness_faithful :
    ScriptRun.Faithful ⟨[.byte 0x48, .take], rom.setHost ⟨offersBeat 0x148, [], none, some 0x148⟩⟩ := by
  refine ⟨?_, ?_⟩
  · intro w hw; cases hw
  · intro w hw
    have hw' : (some 0x148 : Option (BitVec 10)) = some w := hw
    cases hw'
    exact ⟨_, _, _, rfl, rfl, rfl⟩

/-- TableTransactionTiming, both of its cases, and DirectTransactionTiming: over the empty frame, over bytes
ending in LAST, and over a frame with a NULL beat that ends in END. -/
theorem witness_timing :
    Stmt.crcT.instr = some (.crcT 0) ∧ commandOp (.crcT 0) = some .crc ∧ isTableCommand (.crcT 0) = true ∧
    Stmt.rsvD.instr = some (.rsvD 0) ∧ commandOp (.rsvD 0) = some .rsv ∧
    (Stmt.valD 5).instr = some (.valD 5) ∧ commandOp (.valD 5) = some .val ∧
    isTableCommand (.valD 5) = false ∧ Op.val ≠ .rsv ∧
    rom.Inv ∧ rom.gen.tblReady = true ∧ rom.eng.fsm = .idle ∧ rom.host.heldCmd = none ∧
    rom.host.heldBeat = none ∧
    (frameStmts []).map Stmt.instr = [Instr.endBeat 0].map some ∧
    (frameStmts [1, 2]).map Stmt.instr = [Instr.byte 1, Instr.last 2].map some ∧
    [Stmt.byte 1, .null, .endFrame].map Stmt.instr =
      [Instr.byte 1, .nullBeat 0, .endBeat 0].map some ∧
    isFrame [.endBeat 0] = true ∧ isFrame [.byte 1, .last 2] = true ∧
    isFrame [.byte 1, .nullBeat 0, .endBeat 0] = true ∧
    emptyBeats [.endBeat 0] = 1 ∧ emptyBeats [.byte 1, .last 2] = 0 ∧
    emptyBeats [.byte 1, .nullBeat 0, .endBeat 0] = 2 :=
  ⟨rfl, rfl, rfl, rfl, rfl, rfl, rfl, rfl, by decide,
    ⟨by decide, gen_ok_reset 0, by decide⟩, rfl, rfl, rfl, rfl, by decide⟩

end Sys2Proof.Tests
end

section
/-! PROOFS. What the engine does at an edge outside reset, said once for each of its four states, and the
state it goes to. -/

namespace Sys2Proof.Machine

open Sys2Proof

/-- A decoded command word is some command that carries the word's `rxfcs` and `ut` bits (spec R72, R77). -/
theorem engineAfter_decodeCmd (w : BitVec 35) (s : State) :
    ∃ op, engineAfter (decodeCmd w) s = (s.offerCommand op (w.getLsbD 2) (cmdRxfcs w)).eng := by
  unfold decodeCmd
  split <;> next hut _ _ => rw [hut]; exact ⟨_, rfl⟩

/-- A decoded beat is taken as its `keep` and `last` bits say (spec R73, R78). -/
theorem engineAfter_decodeBeat (w : BitVec 10) (s : State) :
    engineAfter (decodeBeat w) s =
      if w.getLsbD 8 then (s.offerByte (beatData w) (w.getLsbD 9)).eng
      else (s.offerNoByte (w.getLsbD 9)).eng := by
  unfold decodeBeat
  split <;> next hlast hkeep => rw [hlast, hkeep]; rfl

/-- In IDLE the engine accepts the offered command or holds (spec R120, R206). -/
theorem State.nextEngine_of_idle {s : State} (hf : s.eng.fsm = .idle) :
    ∃ op, s.nextEngine =
      if s.acceptCmd then
        s.eng.accept op (s.host.pins.cmdWord.getLsbD 2) (cmdRxfcs s.host.pins.cmdWord)
      else s.eng := by
  obtain ⟨op, hop⟩ := engineAfter_decodeCmd s.host.pins.cmdWord s
  refine ⟨op, ?_⟩
  cases hv : s.host.pins.cmdValid with
  | false => simp [State.nextEngine, State.fetch, State.ownEdge, State.acceptCmd, hf, hv]
  | true =>
    cases hready : s.cmdReady <;>
      simp [State.nextEngine, State.fetch, State.acceptCmd, State.offerCommand, hf, hv, hop, hready]

/-- In FRAME the engine takes the offered beat or holds (spec R121, R128 to R131). -/
theorem State.nextEngine_of_frame {s : State} (hf : s.eng.fsm = .frame) :
    s.nextEngine =
      if s.acceptIn then
        if s.host.pins.inBeat.getLsbD 8 then
          s.eng.takeByte s.gen.tbl (beatData s.host.pins.inBeat) (s.host.pins.inBeat.getLsbD 9)
        else s.eng.takeNoByte (s.host.pins.inBeat.getLsbD 9)
      else s.eng := by
  cases hv : s.host.pins.inValid with
  | false => simp [State.nextEngine, State.fetch, State.ownEdge, State.acceptIn, hf, hv]
  | true =>
    cases hready : s.inReady <;>
      simp [State.nextEngine, State.fetch, State.acceptIn, State.offerByte, State.offerNoByte,
        engineAfter_decodeBeat, hf, hv, hready]

/-- In SHIFT the engine shifts, whatever the host offers (spec R126). -/
theorem State.nextEngine_of_shift {s : State} (hf : s.eng.fsm = .shift) :
    s.nextEngine = s.eng.shiftStep := by
  simp [State.nextEngine, State.fetch, State.ownEdge, hf]

/-- In DONE the engine gives its result away or holds it (spec R133). -/
theorem State.nextEngine_of_done {s : State} (hf : s.eng.fsm = .done) :
    s.nextEngine = if s.host.pins.resReady then s.eng.takeResult else s.eng := by
  cases hrdy : s.host.pins.resReady <;>
    simp [State.nextEngine, State.fetch, State.ownEdge, hf, hrdy]

section NextFsm
variable (e : Engine) (t : Table) (b : Byte) (l : Bool)

@[simp] theorem Engine.tableByte_fsm : (e.tableByte t b l).fsm = if l then .done else e.fsm := by
  cases l <;> rfl

@[simp] theorem Engine.reservedByte_fsm : (e.reservedByte l).fsm = if l then .done else e.fsm := by
  cases l <;> rfl

@[simp] theorem Engine.takeNoByte_fsm : (e.takeNoByte l).fsm = if l then .done else e.fsm := by
  cases l <;> rfl

@[simp] theorem Engine.shiftStep_fsm :
    e.shiftStep.fsm = if 1 < e.cnt then e.fsm else if e.plast then .done else .frame := by
  rw [shiftStep_eq]; split <;> [rfl; (split <;> rfl)]

/-- A byte beat starts the shift on the direct path alone (spec R125). -/
theorem Engine.takeByte_fsm_direct (hu : e.cmd.ut = false) (ho : e.cmd.op ≠ .rsv) :
    (e.takeByte t b l).fsm = .shift := by
  simp [Engine.takeByte, hu, ho]

/-- A byte beat of a table command or of the reserved op ends the frame or leaves the engine where it is. -/
theorem Engine.takeByte_fsm_of_table_or_rsv (h : e.cmd.ut = true ∨ e.cmd.op = .rsv) :
    (e.takeByte t b l).fsm = if l then .done else e.fsm := by
  obtain ⟨-, heq⟩ | ⟨-, -, heq⟩ | ⟨ho, hu, -⟩ := e.takeByte_cases t b l
  · rw [heq, reservedByte_fsm]
  · rw [heq, tableByte_fsm]
  · simp [ho, hu] at h

end NextFsm

end Sys2Proof.Machine
end

section
/-! PROOFS. The invariant holds after reset and every step keeps it: the engine's promises operation by
operation, then the generator's. -/

namespace Sys2Proof.Machine

open Sys2Proof

/-! ### What the engine's promises say of one state -/

theorem Engine.Ok.cnt_eq_zero {e : Engine} (h : e.Ok) (hf : e.fsm ≠ .shift) : e.cnt = 0 := by
  obtain ⟨hcnt, -⟩ := h
  exact not_not.mp fun hne => hf (hcnt.mpr hne)

theorem Engine.Ok.plast_eq_false {e : Engine} (h : e.Ok) (hf : e.fsm ≠ .shift) : e.plast = false := by
  obtain ⟨-, hplast, -⟩ := h
  exact Bool.eq_false_iff.mpr fun hp => hf (hplast hp)

theorem Engine.Ok.resValid_eq {e : Engine} (h : e.Ok) : e.resValid = decide (e.fsm = .done) := by
  obtain ⟨-, -, -, hvalid, -⟩ := h
  exact Bool.eq_iff_iff.mpr (hvalid.trans decide_eq_true_iff.symm)

/-! ### The engine's operations keep its promises -/

theorem Engine.reset_ok : Engine.reset.Ok := by decide

/-- `err` marks the reserved op in every result that FINALIZE writes (spec R29, R166). -/
theorem resultOf_err_iff (op : Op) (f rn : Word) :
    (resultOf op f rn).err = true ↔ (resultOf op f rn).op = .rsv := by
  cases op <;> simp [resultOf, errFlag]

/-- `ok` is set for a VAL alone in every result that FINALIZE writes (spec R29, R132). -/
theorem resultOf_op_of_ok {op : Op} {f rn : Word} (h : (resultOf op f rn).ok = true) :
    (resultOf op f rn).op = .val := by
  cases op <;> simp_all [resultOf, okFlag]

theorem Engine.accept_ok {e : Engine} (h : e.Ok) (hf : e.fsm = .idle) (op : Op) (ut : Bool) (f : Word) :
    (e.accept op ut f).Ok := by
  have hvalid := h.resValid_eq
  obtain ⟨-, -, -, -, -, -, herr, hok⟩ := h
  exact ⟨by simp, by simp, by simp, by simp [hvalid, hf], fun _ => rfl, by simp, herr, hok⟩

/-- FINALIZE with the register's own value (spec R132). -/
theorem Engine.finalize_ok {e : Engine} (h : e.Ok) (hf : e.fsm = .frame) : (e.finalize e.r).Ok := by
  have hcnt : e.cnt = 0 := h.cnt_eq_zero (by simp [hf])
  have hplast : e.plast = false := h.plast_eq_false (by simp [hf])
  obtain ⟨-, -, -, -, hrsv, -⟩ := h
  exact ⟨by simp [hcnt], by simp [hplast], by simp, by simp, hrsv, fun _ => rfl,
    resultOf_err_iff _ _ _, resultOf_op_of_ok⟩

/-- Outside DONE the register of a command that is not reserved may take any value. -/
theorem Engine.setR_ok {e : Engine} (h : e.Ok) (ho : e.cmd.op ≠ .rsv) (hf : e.fsm ≠ .done) (r : Word) :
    ({ e with r := r } : Engine).Ok := by
  obtain ⟨hcnt, hplast, hdirect, hvalid, -, -, herr, hok⟩ := h
  exact ⟨hcnt, hplast, hdirect, hvalid, fun hrsv => absurd hrsv ho, fun hdone => absurd hdone hf,
    herr, hok⟩

theorem Engine.takeNoByte_ok {e : Engine} (h : e.Ok) (hf : e.fsm = .frame) (l : Bool) :
    (e.takeNoByte l).Ok := by
  cases l with
  | false => exact h
  | true => exact finalize_ok h hf

theorem Engine.reservedByte_ok {e : Engine} (h : e.Ok) (hf : e.fsm = .frame) (l : Bool) :
    (e.reservedByte l).Ok := takeNoByte_ok h hf l

theorem Engine.tableByte_ok {e : Engine} (h : e.Ok) (hf : e.fsm = .frame) (ho : e.cmd.op ≠ .rsv)
    (t : Table) (b : Byte) (l : Bool) : (e.tableByte t b l).Ok := by
  have hr := setR_ok h ho (by simp [hf]) (updT t e.r b)
  cases l with
  | false => exact hr
  | true => exact finalize_ok hr hf

theorem Engine.directByte_ok {e : Engine} (h : e.Ok) (hf : e.fsm = .frame) (ho : e.cmd.op ≠ .rsv)
    (hu : e.cmd.ut = false) (b : Byte) (l : Bool) : (e.directByte b l).Ok := by
  have hvalid := h.resValid_eq
  obtain ⟨-, -, -, -, -, -, herr, hok⟩ := h
  exact ⟨by simp, by simp, fun _ => ⟨hu, ho⟩, by simp [hvalid, hf], fun hrsv => absurd hrsv ho,
    by simp, herr, hok⟩

theorem Engine.takeByte_ok {e : Engine} (h : e.Ok) (hf : e.fsm = .frame) (t : Table) (b : Byte) (l : Bool) :
    (e.takeByte t b l).Ok := by
  obtain ⟨-, heq⟩ | ⟨ho, -, heq⟩ | ⟨ho, hu, heq⟩ := e.takeByte_cases t b l
  · rw [heq]; exact reservedByte_ok h hf l
  · rw [heq]; exact tableByte_ok h hf ho t b l
  · rw [heq]; exact directByte_ok h hf ho hu b l

/-- Back in FRAME after a byte's last shift (spec R126). -/
theorem Engine.leaveShift_ok {e : Engine} (h : e.Ok) (hf : e.fsm = .shift) :
    ({ e with r := polyStep e.r, cnt := 0, plast := false, fsm := .frame } : Engine).Ok := by
  have hvalid := h.resValid_eq
  obtain ⟨-, -, hdirect, -, -, -, herr, hok⟩ := h
  obtain ⟨-, ho⟩ := hdirect hf
  exact ⟨by simp, by simp, by simp, by simp [hvalid, hf], fun hrsv => absurd hrsv ho, by simp, herr, hok⟩

/-- One more shift with steps left to do (spec R126). -/
theorem Engine.countDown_ok {e : Engine} (h : e.Ok) (hf : e.fsm = .shift) (hcnt : 1 < e.cnt) :
    ({ e with r := polyStep e.r, cnt := e.cnt - 1 } : Engine).Ok := by
  have hleft : e.cnt - 1 ≠ 0 := by bv_omega
  obtain ⟨-, hplast, hdirect, hvalid, -, -, herr, hok⟩ := h
  obtain ⟨-, ho⟩ := hdirect hf
  exact ⟨iff_of_true hf hleft, hplast, hdirect, hvalid, fun hrsv => absurd hrsv ho,
    fun hdone => absurd (hf.symm.trans hdone) (by decide), herr, hok⟩

theorem Engine.shiftStep_ok {e : Engine} (h : e.Ok) (hf : e.fsm = .shift) : e.shiftStep.Ok := by
  rw [shiftStep_eq]
  split
  case isTrue hcnt => exact countDown_ok h hf hcnt
  case isFalse =>
    have hleave := leaveShift_ok h hf
    split
    case isTrue => exact (finalize_ok hleave rfl :)
    case isFalse hplast => rwa [← Bool.eq_false_iff.mpr hplast] at hleave

theorem Engine.takeResult_ok {e : Engine} (h : e.Ok) (hf : e.fsm = .done) : e.takeResult.Ok := by
  have hcnt : e.cnt = 0 := h.cnt_eq_zero (by simp [hf])
  have hplast : e.plast = false := h.plast_eq_false (by simp [hf])
  obtain ⟨-, -, -, -, hrsv, -, herr, hok⟩ := h
  exact ⟨by simp [hcnt], by simp [hplast], by simp, by simp, hrsv, by simp, herr, hok⟩

/-- The engine's action keeps the engine's promises. -/
theorem State.nextEngine_ok {s : State} (h : s.eng.Ok) : s.nextEngine.Ok := by
  cases hf : s.eng.fsm with
  | idle =>
    obtain ⟨op, heq⟩ := State.nextEngine_of_idle hf
    rw [heq]
    split
    · exact Engine.accept_ok h hf _ _ _
    · exact h
  | frame =>
    rw [State.nextEngine_of_frame hf]
    split
    · split
      · exact Engine.takeByte_ok h hf _ _ _
      · exact Engine.takeNoByte_ok h hf _
    · exact h
  | shift =>
    rw [State.nextEngine_of_shift hf]
    exact Engine.shiftStep_ok h hf
  | done =>
    rw [State.nextEngine_of_done hf]
    split
    · exact Engine.takeResult_ok h hf
    · exact h

/-! ### The generator's promises -/

theorem Gen.reset_ok (latency draw : Nat) : (Gen.reset latency draw).Ok where
  gidx_le := Nat.zero_le 256
  below _ hi := absurd hi (Nat.not_lt_zero _)
  ready hr i := by
    have hl : latency = 0 := by simpa [Gen.reset] using hr
    simp [Gen.reset, hl]
  busy hb := by
    have hl : latency ≠ 0 := by simpa [Gen.reset] using hb
    exact ⟨Nat.pos_of_ne_zero hl, Nat.zero_lt_succ 255, Nat.pos_of_ne_zero hl⟩
  still hr := by
    have hl : latency = 0 := by simpa [Gen.reset] using hr
    simp [Gen.reset, hl]

/-- A working edge extends the written entries up to its next index (spec R102). -/
theorem Gen.Ok.filled_below {g : Gen} (h : g.Ok) {i : Byte} (hi : i.toNat < g.nextIndex) :
    g.filled.read i = tgen i := by
  rw [Gen.read_filled]
  split
  case isTrue => rfl
  case isFalse hout => exact h.below i (by omega)

theorem Gen.edge_ok {g : Gen} (h : g.Ok) (draw : Nat) : (g.edge draw).Ok := by
  cases hr : g.tblReady with
  | true => rwa [Gen.edge_of_ready draw hr]
  | false =>
    obtain ⟨hfill, htbl, hgidx, hready, hphase⟩ := Gen.edge_of_busy draw hr
    obtain ⟨hlat, -, -⟩ := h.busy hr
    have hnext : (g.edge draw).gidx.toNat = g.nextIndex := by rw [hgidx, Gen.nextIndex_toNat]
    have hdone : (g.edge draw).tblReady = true → g.nextIndex = 256 := by simp [hready]
    constructor
    case gidx_le => rw [hnext]; exact g.nextIndex_le
    case below =>
      intro i hi
      rw [hfill]
      exact h.filled_below (hnext ▸ hi)
    case ready =>
      intro hd i
      rw [htbl, if_pos (hdone hd)]
      exact h.filled_below (hdone hd ▸ i.isLt)
    case busy =>
      intro hb
      have hne : g.nextIndex ≠ 256 := by simpa [hready] using hb
      rw [Gen.edge_latency, hnext, hphase]
      exact ⟨hlat, Nat.lt_of_le_of_ne g.nextIndex_le hne, Nat.mod_lt _ hlat⟩
    case still =>
      intro hd
      rw [Gen.edge_latency, hnext, hdone hd, if_neg (Nat.ne_of_gt hlat)]

/-! ### The whole machine -/

/-- Whatever the host does and whichever draw the table held, the reset values meet the invariant. -/
theorem State.inv_of_reset (latency draw : Nat) (h : HostSide) (n : Nat) :
    State.Inv ⟨Engine.reset, Gen.reset latency draw, h, n⟩ :=
  ⟨Engine.reset_ok, Gen.reset_ok latency draw, fun hf => absurd rfl hf⟩

/-- The engine leaves IDLE only with the table ready (spec R61, R206). -/
theorem State.tblReady_of_nextEngine_open {s : State} (h : s.Inv) (hf : s.nextEngine.fsm ≠ .idle) :
    s.gen.tblReady = true := by
  by_cases hidle : s.eng.fsm = .idle
  · obtain ⟨op, heq⟩ := State.nextEngine_of_idle hidle
    rw [heq] at hf
    split at hf
    case isTrue hacc =>
      obtain ⟨-, hready⟩ := Bool.and_eq_true_iff.mp hacc
      exact (s.cmdReady_iff.mp hready).2.1
    case isFalse => exact absurd hidle hf
  · exact h.open_ready hidle

end Sys2Proof.Machine

open Sys2Proof Sys2Proof.Machine

/-- Settles O12: a reset edge starts the invariant afresh; any other edge is the engine's action and the
generator's step, and each keeps its own promises. -/
theorem stepKeepsTheInvariant : Obligations.StepKeepsTheInvariant := by
  intro s t hinv hstep
  obtain ⟨-, rfl⟩ | ⟨-, -, -, rfl⟩ := step_cases hstep
  · exact State.inv_of_reset _ _ _ _
  · refine ⟨State.nextEngine_ok hinv.eng, Gen.edge_ok hinv.gen s.draws, fun hf => ?_⟩
    have hready : s.gen.tblReady = true := State.tblReady_of_nextEngine_open hinv hf
    simpa [Gen.edge_of_ready s.draws hready] using hready

/-- Settles O11: `State.reset` is the reset state of the reference latency. -/
theorem resetMeetsTheInvariant : Obligations.ResetMeetsTheInvariant :=
  ⟨fun _ => State.inv_of_reset _ _ _ _, State.inv_of_reset _ _ _ _⟩

end

section
/-! PROOFS. The engine's transitions, the reset values and the output ports. -/

open Sys2Proof Sys2Proof.Machine

/-- Settles O23: each clause is the engine's next state from one of its states. -/
theorem fsmTransitions : Obligations.FsmTransitions := by
  intro s t hinv hstep
  obtain ⟨hr, rfl⟩ | ⟨hr, -, -, rfl⟩ := step_cases hstep
  · simp [hr, State.resetEdge, Engine.reset]
  · refine ⟨by simp [hr], fun _ hf => ?idle,
      fun _ hf => ⟨fun ha => ?frameHolds, fun ha => ⟨?direct, ?other⟩⟩,
      fun _ hf => ?shift, fun _ hf => ?done⟩
    case idle =>
      obtain ⟨op, heq⟩ := State.nextEngine_of_idle hf
      rw [heq]
      split
      · rfl
      · exact hf
    case frameHolds => simp [State.nextEngine_of_frame hf, ha, hf]
    case direct =>
      intro hkeep hu ho
      rw [State.nextEngine_of_frame hf, if_pos ha, if_pos hkeep]
      exact Engine.takeByte_fsm_direct _ _ _ _ hu ho
    case other =>
      intro hcause
      rw [State.nextEngine_of_frame hf, if_pos ha, ← hf]
      split
      case isTrue hkeep =>
        have hpath := hcause.resolve_left (by rw [hkeep]; decide)
        exact Engine.takeByte_fsm_of_table_or_rsv _ _ _ _ hpath
      case isFalse => exact Engine.takeNoByte_fsm _ _
    case shift => simp [State.nextEngine_of_shift hf, hf]
    case done =>
      have hvalid : s.eng.resValid = true := by simp [hinv.eng.resValid_eq, hf]
      have hacc : s.acceptRes = s.host.pins.resReady := by
        simp [State.acceptRes, State.resValidOut, hr, hvalid]
      rw [State.nextEngine_of_done hf, hacc]
      split
      · rfl
      · exact hf

/-- Settles O8: every value is the reset definition's own; the table is the ROM's for latency 0. -/
theorem resetLeavesTheListedValues : Obligations.ResetLeavesTheListedValues := by
  intro latency
  have hready : (latency == 0) = decide (latency = 0) := rfl
  have hrom : latency = 0 → ∀ i : Byte, (State.resetWith latency).gen.tbl.read i = tgen i := by
    intro hl
    exact (Gen.reset_ok latency 0).ready (by simp [Gen.reset, hl])
  exact ⟨rfl, rfl, rfl, rfl, rfl, rfl, rfl, hready, hrom, rfl, rfl, rfl, rfl, rfl⟩

/-- Settles O20: with `rst = 0` each port is its equation, with `rst = 1` its gate is 0. -/
theorem outputPortEquations : Obligations.OutputPortEquations := by
  intro s
  constructor
  · intro hr
    have htbl : s.tblReadyOut = s.gen.tblReady := by simp [State.tblReadyOut, hr]
    refine ⟨?cmdReady, ?inReady, ?resValid, ?busy, htbl, ?resWord, fun hready => ?debugRead⟩
    case cmdReady => simp [State.cmdReady, hr, beq_eq_decide]
    case inReady => simp [State.inReady, hr, beq_eq_decide]
    case resValid => simp [State.resValidOut, hr]
    case busy => simp [State.busy, hr, bne, beq_eq_decide]
    case resWord => simp [State.resWord, hr, Res.pack]
    case debugRead => simp [State.tblRdData, htbl, hready]
  · intro hr
    simp [State.cmdReady, State.inReady, State.resValidOut, State.busy, State.tblReadyOut, hr]

end

section
/-! PROOFS. The table memory as the engine reads it. -/

open Sys2Proof Sys2Proof.Machine

/-- Settles O19: in FRAME the table is ready, and a ready table is complete at every index, so at the
engine's own (spec R61, R103). -/
theorem engineReadsGeneratedEntries : Obligations.EngineReadsGeneratedEntries := by
  intro s hinv hframe b
  have hready : s.gen.tblReady = true := hinv.open_ready (by simp [hframe])
  exact hinv.gen.ready hready (tableIndex s.eng.r b)

end

section
/-! PROOFS. The encoder and the decoder undo each other, and the opcode table agrees with both. -/

namespace Sys2Proof

/-! ### The bits of a packed word, and the word back from its fields (spec R72, R73) -/

section PackedWords
variable {f : Word} {ut last keep : Bool} {op : BitVec 2} {b : Byte}

theorem packCmd_getLsbD (k : Nat) :
    (packCmd f ut op).getLsbD k =
      if k < 2 then op.getLsbD k else if k = 2 then ut else f.getLsbD (k - 3) := by
  change (f ++ BitVec.ofBool ut ++ op).getLsbD k = _
  rw [BitVec.getLsbD_append, BitVec.getLsbD_append]
  obtain hk | rfl | hk : k < 2 ∨ k = 2 ∨ 2 < k := by omega
  · simp [hk]
  · simp
  · simp [show ¬ k < 2 by omega, show k ≠ 2 by omega, show ¬ k - 2 < 1 by omega, Nat.sub_sub]

theorem packBeat_getLsbD (k : Nat) :
    (packBeat last keep b).getLsbD k =
      if k < 8 then b.getLsbD k else if k = 8 then keep else decide (k = 9) && last := by
  change (BitVec.ofBool last ++ BitVec.ofBool keep ++ b).getLsbD k = _
  rw [BitVec.getLsbD_append, BitVec.getLsbD_append]
  obtain hk | rfl | rfl | hk : k < 8 ∨ k = 8 ∨ k = 9 ∨ 9 < k := by omega
  · simp [hk]
  · simp
  · simp
  · simp [show ¬ k < 8 by omega, show k ≠ 8 by omega, show k ≠ 9 by omega,
      show ¬ k - 8 < 1 by omega, show k - 8 - 1 ≠ 0 by omega]

theorem cmdRxfcs_packCmd : cmdRxfcs (packCmd f ut op) = f := by
  apply BitVec.eq_of_getLsbD_eq
  intro k hk
  simp only [cmdRxfcs, BitVec.getLsbD_extractLsb', packCmd_getLsbD]
  simp [hk, show ¬ 3 + k < 2 by omega, show 3 + k ≠ 2 by omega]

theorem beatData_packBeat : beatData (packBeat last keep b) = b := by
  apply BitVec.eq_of_getLsbD_eq
  intro k hk
  simp only [beatData, BitVec.getLsbD_extractLsb', packBeat_getLsbD]
  simp [hk]

theorem packCmd_of_fields {w : BitVec 35} (hut : w.getLsbD 2 = ut) (h1 : w.getLsbD 1 = op.getLsbD 1)
    (h0 : w.getLsbD 0 = op.getLsbD 0) : packCmd (cmdRxfcs w) ut op = w := by
  apply BitVec.eq_of_getLsbD_eq
  intro k hk
  rw [packCmd_getLsbD]
  obtain rfl | rfl | rfl | hk : k = 0 ∨ k = 1 ∨ k = 2 ∨ 3 ≤ k := by omega
  · exact h0.symm
  · exact h1.symm
  · exact hut.symm
  · rw [if_neg (by omega), if_neg (by omega), cmdRxfcs, BitVec.getLsbD_extractLsb']
    simp [show k - 3 < 32 by omega, show 3 + (k - 3) = k by omega]

theorem packBeat_of_fields {w : BitVec 10} (hlast : w.getLsbD 9 = last) (hkeep : w.getLsbD 8 = keep) :
    packBeat last keep (beatData w) = w := by
  apply BitVec.eq_of_getLsbD_eq
  intro k hk
  rw [packBeat_getLsbD]
  obtain hk | rfl | rfl : k < 8 ∨ k = 8 ∨ k = 9 := by omega
  · simp [beatData, hk]
  · exact hkeep.symm
  · exact hlast.symm

/-- The command rows' mask keeps `ut` and `op` alone (spec R77). -/
theorem packCmd_and_mask : (packCmd f ut op).toNat &&& 0x7 = (packCmd 0 ut op).toNat := by
  have hbits : packCmd f ut op &&& 0x7#35 = packCmd 0 ut op := by
    change (f ++ BitVec.ofBool ut ++ op) &&& (0#32 ++ BitVec.allOnes 1 ++ BitVec.allOnes 2) = _
    simp only [BitVec.and_append, BitVec.and_zero, BitVec.and_allOnes]
    rfl
  exact congrArg BitVec.toNat hbits

/-- The beat rows' mask keeps `last` and `keep` alone (spec R78). -/
theorem packBeat_and_mask : (packBeat last keep b).toNat &&& 0x300 = (packBeat last keep 0).toNat := by
  have hbits : packBeat last keep b &&& 0x300#10 = packBeat last keep 0 := by
    change (BitVec.ofBool last ++ BitVec.ofBool keep ++ b) &&&
      (BitVec.allOnes 1 ++ BitVec.allOnes 1 ++ 0#8) = _
    simp only [BitVec.and_append, BitVec.and_zero, BitVec.and_allOnes]
    rfl
  exact congrArg BitVec.toNat hbits

end PackedWords

/-! ### Raw words that fit their port (spec R79) -/

theorem decode_cmd (w : BitVec 35) : decode ⟨.cmd, w.toNat⟩ = .ok (decodeCmd w) := by
  simp [decode, Laws.EncodeFits.cmd_fits]

theorem decode_beat (w : BitVec 10) : decode ⟨.data, w.toNat⟩ = .ok (decodeBeat w) := by
  simp [decode, Laws.EncodeFits.beat_fits]

/-- A word fits its port exactly if it is a command word or a beat. -/
theorem PortWord.wellFormed_iff (p : PortWord) :
    p.wellFormed = true ↔
      (∃ w : BitVec 35, p = ⟨.cmd, w.toNat⟩) ∨ (∃ w : BitVec 10, p = ⟨.data, w.toNat⟩) := by
  constructor
  · intro h
    obtain ⟨ch, n⟩ := p
    have hlt : n < 2 ^ ch.width := of_decide_eq_true h
    cases ch with
    | cmd => exact .inl ⟨BitVec.ofNatLT n hlt, rfl⟩
    | data => exact .inr ⟨BitVec.ofNatLT n hlt, rfl⟩
  · rintro (⟨w, rfl⟩ | ⟨w, rfl⟩)
    · exact Laws.EncodeFits.cmd_fits w
    · exact Laws.EncodeFits.beat_fits w

theorem encodeBits_decodeCmd (w : BitVec 35) : encodeBits (decodeCmd w) = .cmd w := by
  unfold decodeCmd
  split <;> next hut h1 h0 => exact congrArg PortBits.cmd (packCmd_of_fields hut h1 h0)

theorem encodeBits_decodeBeat (w : BitVec 10) : encodeBits (decodeBeat w) = .beat w := by
  unfold decodeBeat
  split <;> next hlast hkeep => exact congrArg PortBits.beat (packBeat_of_fields hlast hkeep)

theorem encode_decodeCmd (w : BitVec 35) : encode (decodeCmd w) = ⟨.cmd, w.toNat⟩ := by
  rw [encode, encodeBits_decodeCmd]

theorem encode_decodeBeat (w : BitVec 10) : encode (decodeBeat w) = ⟨.data, w.toNat⟩ := by
  rw [encode, encodeBits_decodeBeat]

/-- The rows that cover an instruction's word are those that name it (spec R77, R78). -/
theorem OpcodeRow.covers_encode (i : Instr) :
    ∀ row ∈ opcodeTable, (row.covers (encode i) = true ↔ row.mnemonic = i.mnemonic) := by
  cases i <;>
    simp [opcodeTable, OpcodeRow.covers, encode, encodeBits, Instr.mnemonic, packCmd_and_mask,
      packBeat_and_mask] <;> decide

end Sys2Proof

open Sys2Proof Sys2Proof.Machine

/-- Settles O1: the encoder's fields are the ones the decoder reads. -/
theorem decodeUndoesEncode : Obligations.DecodeUndoesEncode := by
  intro i
  cases i <;>
    simp only [encode, encodeBits, decode_cmd, decode_beat, decodeCmd, decodeBeat, packCmd_getLsbD,
      packBeat_getLsbD, cmdRxfcs_packCmd, beatData_packBeat] <;> rfl

/-- Settles O2: a word that fits is a command word or a beat, and each is rebuilt from its fields. -/
theorem encodeUndoesDecode : Obligations.EncodeUndoesDecode := by
  intro p hp
  obtain ⟨w, rfl⟩ | ⟨w, rfl⟩ := p.wellFormed_iff.mp hp
  · exact ⟨decodeCmd w, decode_cmd w, encode_decodeCmd w⟩
  · exact ⟨decodeBeat w, decode_beat w, encode_decodeBeat w⟩

/-- Settles O3: a word that fits is the encoding of what it decodes to, so the rows need only be compared
with encodings. -/
theorem opcodeTableSelectsTheInstruction : Obligations.OpcodeTableSelectsTheInstruction := by
  intro p hp
  obtain ⟨i, hdec, rfl⟩ := encodeUndoesDecode p hp
  exact ⟨i, hdec, OpcodeRow.covers_encode i⟩

end

section
/-! PROOFS. Which channel is open in a state, and that a step runs the instruction fetched there. -/

namespace Sys2Proof.Machine

open Sys2Proof

/-! ### A transfer names the engine's state (spec R71, R32) -/

theorem State.fsm_of_acceptCmd {s : State} (h : s.acceptCmd = true) : s.eng.fsm = .idle := by
  obtain ⟨-, hready⟩ := Bool.and_eq_true_iff.mp h
  obtain ⟨-, -, hf⟩ := s.cmdReady_iff.mp hready
  exact hf

theorem State.fsm_of_acceptIn {s : State} (h : s.acceptIn = true) : s.eng.fsm = .frame := by
  obtain ⟨-, hready⟩ := Bool.and_eq_true_iff.mp h
  obtain ⟨-, hf⟩ := s.inReady_iff.mp hready
  exact hf

theorem State.fsm_of_acceptRes {s : State} (hinv : s.Inv) (h : s.acceptRes = true) :
    s.eng.fsm = .done := by
  obtain ⟨hout, -⟩ := Bool.and_eq_true_iff.mp h
  obtain ⟨-, hvalid⟩ := Bool.and_eq_true_iff.mp hout
  simpa [hinv.eng.resValid_eq] using hvalid

/-- Transfers that need different engine states exclude each other. -/
theorem and_eq_false_of_fsm_ne {e : Engine} {p q : Bool} {f g : Fsm} (hp : p = true → e.fsm = f)
    (hq : q = true → e.fsm = g) (hne : f ≠ g) : (p && q) = false := by
  refine Bool.eq_false_iff.mpr fun h => hne ?_
  obtain ⟨hpt, hqt⟩ := Bool.and_eq_true_iff.mp h
  rw [← hp hpt, hq hqt]

/-! ### The fetched instruction is what the step runs (spec R185) -/

theorem State.fetch_of_idle {s : State} (hf : s.eng.fsm = .idle) (hv : s.host.pins.cmdValid = true) :
    s.fetch = some (decodeCmd s.host.pins.cmdWord) := by
  simp [State.fetch, hf, hv]

theorem State.fetch_of_frame {s : State} (hf : s.eng.fsm = .frame) (hv : s.host.pins.inValid = true) :
    s.fetch = some (decodeBeat s.host.pins.inBeat) := by
  simp [State.fetch, hf, hv]

theorem step_of_fetch {s : State} {i : Instr} (hclean : s.Clean) (hi : s.fetch = some i) :
    step s = .next (s.finishEdge (s.setEng (engineAfter i s))) := by
  obtain ⟨hr, hc, hb⟩ := hclean
  have hnext : s.nextEngine = engineAfter i s := by simp [State.nextEngine, hi]
  rw [step_of_clean hr hc hb, hnext]
  rfl

/-! ### The placed word (log 13) -/

theorem State.placeWord_clean (s : State) (p : PortWord) : (s.placeWord p).Clean := by
  obtain ⟨ch, n⟩ := p
  cases ch <;> exact ⟨rfl, rfl, rfl⟩

theorem wellFormed_of_decode {p : PortWord} {i : Instr} (hdec : decode p = .ok i) :
    p.wellFormed = true := by
  by_contra hwide
  obtain ⟨ch, n⟩ := p
  cases ch <;> simp [decode, hwide] at hdec

/-- A placed word that decodes is fetched. -/
theorem State.fetch_placeWord {p : PortWord} {i : Instr} (s : State) (hdec : decode p = .ok i) :
    (s.placeWord p).fetch = some i := by
  have hfits := wellFormed_of_decode hdec
  obtain ⟨ch, n⟩ := p
  cases ch <;> simpa [decode, hfits, State.fetch, State.placeWord] using hdec

/-- A table word that decodes is placed. -/
theorem State.withFetchWord_of_decode (s : State) {nbits w : Nat} {i : Instr}
    (hdec : decode ⟨tableChannel nbits, w⟩ = .ok i) :
    s.withFetchWord nbits w = s.placeWord ⟨tableChannel nbits, w⟩ :=
  if_pos (wellFormed_of_decode hdec)

end Sys2Proof.Machine

open Sys2Proof Sys2Proof.Machine

/-- Settles O22: a command needs IDLE, a beat FRAME, and a result DONE. -/
theorem oneTransferPerEdge : Obligations.OneTransferPerEdge := by
  intro s hinv
  have hcmd : s.acceptCmd = true → s.eng.fsm = .idle := State.fsm_of_acceptCmd
  have hin : s.acceptIn = true → s.eng.fsm = .frame := State.fsm_of_acceptIn
  have hres : s.acceptRes = true → s.eng.fsm = .done := State.fsm_of_acceptRes hinv
  exact ⟨and_eq_false_of_fsm_ne hcmd hin (by decide), and_eq_false_of_fsm_ne hcmd hres (by decide),
    and_eq_false_of_fsm_ne hin hres (by decide)⟩

/-- Settles O6: either way the instruction is the one fetched. -/
theorem stepRunsTheDecodedInstruction : Obligations.StepRunsTheDecodedInstruction := by
  intro s i hclean hopen
  have hi : s.fetch = some i := by
    obtain ⟨hf, hv, rfl⟩ | ⟨hf, hv, rfl⟩ := hopen
    · exact State.fetch_of_idle hf hv
    · exact State.fetch_of_frame hf hv
  rw [step_of_fetch hclean hi, exec_eq]
  rfl

/-- Settles O7: the placed word is fetched at an edge with nothing owed. -/
theorem placedWordRunsNext : Obligations.PlacedWordRunsNext := by
  intro s nbits w i htable
  have hdec : decode ⟨tableChannel nbits, w⟩ = .ok i := by
    unfold decodeTableWord at htable
    split at htable
    case h_1 hok => rw [hok, Option.some.inj htable]
    case h_2 => cases htable
  have hi := State.fetch_placeWord s hdec
  rw [State.withFetchWord_of_decode s hdec]
  refine ⟨hi, ?_⟩
  rw [step_of_fetch (State.placeWord_clean s _) hi, exec_eq]

end

section
/-! PROOFS. A host that follows a script: what it offers in a cycle, and that it goes on offering it until
the core accepts. The two instruction ports are spoken of together, by the word that stands on one of them. -/

namespace Sys2Proof.Machine

open Sys2Proof

/-! ### Offers, accepted, waiting and owed (spec R71, R210) -/

/-- The host offers the word on its port in this cycle. -/
def State.Offers (s : State) (w : PortBits) : Prop :=
  match w with
  | .cmd w => s.host.pins.cmdValid = true ∧ s.host.pins.cmdWord = w
  | .beat w => s.host.pins.inValid = true ∧ s.host.pins.inBeat = w

/-- The host owes the word, which the last edge left waiting on its port. -/
def State.Owes (s : State) (w : PortBits) : Prop :=
  match w with
  | .cmd w => s.host.heldCmd = some w
  | .beat w => s.host.heldBeat = some w

/-- The word's port transfers at this edge. -/
def State.acceptsOn (s : State) (w : PortBits) : Bool :=
  match w with
  | .cmd _ => s.acceptCmd
  | .beat _ => s.acceptIn

/-- A host that offers all it owes gets a step (spec R182, R210). -/
theorem step_of_owed_offered {s : State} (h : ∀ w, s.Owes w → s.Offers w) : ∃ t, step s = .next t := by
  cases hr : s.host.pins.rst with
  | true => exact ⟨_, step_of_rst hr⟩
  | false =>
    have hcmd : s.cmdBreach = false := by
      cases hheld : s.host.heldCmd with
      | none => simp [State.cmdBreach, hheld]
      | some w =>
        obtain ⟨hv, hw⟩ := h (.cmd w) hheld
        simp [State.cmdBreach, hheld, hv, hw]
    have hbeat : s.beatBreach = false := by
      cases hheld : s.host.heldBeat with
      | none => simp [State.beatBreach, hheld]
      | some w =>
        obtain ⟨hv, hw⟩ := h (.beat w) hheld
        simp [State.beatBreach, hheld, hv, hw]
    exact ⟨_, step_of_clean hr hcmd hbeat⟩

/-- Every step, a reset edge too, leaves owed the offers it did not accept. -/
theorem held_of_step {s t : State} (h : step s = .next t) :
    t.host.heldCmd = s.waitingCmd ∧ t.host.heldBeat = s.waitingBeat := by
  obtain ⟨-, rfl⟩ | ⟨-, -, -, rfl⟩ := step_cases h
  · exact s.hostAdvance_held
  · exact s.hostAdvance_held

theorem owes_iff_of_step {s t : State} (h : step s = .next t) (w : PortBits) :
    t.Owes w ↔ s.Offers w ∧ s.acceptsOn w = false := by
  obtain ⟨hcmd, hbeat⟩ := held_of_step h
  cases w with
  | cmd w =>
    simp only [State.Owes, State.Offers, State.acceptsOn, hcmd, State.waitingCmd, State.acceptCmd]
    cases s.host.pins.cmdValid <;> simp [and_comm]
  | beat w =>
    simp only [State.Owes, State.Offers, State.acceptsOn, hbeat, State.waitingBeat, State.acceptIn]
    cases s.host.pins.inValid <;> simp [and_comm]

/-! ### What a script drives (spec R81) -/

/-- The script's first statement sends the word. -/
def ScriptOffers (script : List Stmt) (w : PortBits) : Prop :=
  ∃ st rest i, script = st :: rest ∧ st.instr = some i ∧ encodeBits i = w

theorem ScriptRun.faithful_iff (m : ScriptRun) :
    m.Faithful ↔ ∀ w, m.core.Owes w → ScriptOffers m.script w := by
  constructor
  · rintro ⟨hcmd, hbeat⟩ (w | w)
    · exact hcmd w
    · exact hbeat w
  · exact fun h => ⟨fun w => h (.cmd w), fun w => h (.beat w)⟩

/-- A statement that sends a word is no WAIT_TBL, so it stays at the head. -/
theorem ScriptOffers.settle_eq {script : List Stmt} {w : PortBits} (h : ScriptOffers script w)
    (ready : Bool) : settle ready script = script := by
  obtain ⟨st, rest, i, rfl, hi, -⟩ := h
  cases st <;> cases hi <;> rfl

theorem Stmt.completes_of_instr {st : Stmt} {i : Instr} (hi : st.instr = some i) (s : State) :
    st.completes s = s.acceptsOn (encodeBits i) := by
  simp only [Stmt.completes, hi]
  cases encodeBits i <;> rfl

/-- The ports driven by a script offer what the script's first statement sends, and nothing else. -/
theorem offers_setPins_scriptPins (s : State) (script : List Stmt) (p : Pins) (w : PortBits) :
    (s.setPins (scriptPins script p)).Offers w ↔ ScriptOffers script w := by
  cases script with
  | nil => cases w <;> simp [State.Offers, ScriptOffers, scriptPins, Pins.idle]
  | cons st rest =>
    cases hi : st.instr with
    | some i =>
      have hdrive : scriptPins (st :: rest) p = p.offer (encodeBits i) := by
        simp [scriptPins, Stmt.drive, hi]
      rw [hdrive]
      cases w <;> cases hw : encodeBits i <;>
        simp [State.Offers, ScriptOffers, Pins.offer, Pins.idle, hi, hw]
    | none =>
      cases st <;> cases hi <;> cases w <;>
        simp [State.Offers, ScriptOffers, scriptPins, Stmt.drive, Stmt.instr, Pins.idle]

/-- A statement whose word waits stays the script's next one. -/
theorem ScriptRun.remaining_of_waiting {m : ScriptRun} {w : PortBits}
    (h : ScriptOffers (settle m.core.gen.tblReady m.script) w) (hwait : m.driven.acceptsOn w = false) :
    m.remaining = settle m.core.gen.tblReady m.script := by
  obtain ⟨st, rest, i, hsettled, hi, rfl⟩ := h
  have hopen : st.completes m.driven = false := (Stmt.completes_of_instr hi _).trans hwait
  simp [ScriptRun.remaining, hsettled, hopen]

end Sys2Proof.Machine

open Sys2Proof Sys2Proof.Machine

/-- Settles O58: the offers owed are those of the first statement, which drives the ports; what its edge does
not accept is owed next, and the statement stays first. -/
theorem scriptHostsAreNeverRefused : Obligations.ScriptHostsAreNeverRefused := by
  intro m hm
  rw [m.faithful_iff] at hm
  have hoffers : ∀ w, m.driven.Offers w ↔ ScriptOffers (settle m.core.gen.tblReady m.script) w :=
    offers_setPins_scriptPins _ _ _
  have hkept : ∀ w, m.driven.Owes w → m.driven.Offers w := by
    intro w howes
    have hscript : ScriptOffers m.script w := hm w (by cases w <;> exact howes)
    rwa [hoffers, hscript.settle_eq]
  obtain ⟨t, ht⟩ := step_of_owed_offered hkept
  have hcycle : m.cycle = .next ⟨m.remaining, t⟩ := by simp [ScriptRun.cycle, ht]
  refine ⟨_, hcycle, (ScriptRun.faithful_iff _).mpr fun w howes => ?_⟩
  obtain ⟨hoffered, hwait⟩ := (owes_iff_of_step ht w).mp howes
  have hnext := (hoffers w).mp hoffered
  rwa [ScriptRun.remaining_of_waiting hnext hwait]

end

section
/-! PROOFS. A whole transaction on the table path: the beats of a frame fold the table's update over their
bytes, and the frame's end writes the result. The worked encodings and the transaction over "HELLO". -/

namespace Sys2Proof.Machine

open Sys2Proof

/-! ### The table path through a frame -/

/-- The engine is in the frame of an accepted table command that is not reserved. -/
structure State.OnTablePath (s : State) : Prop where
  rst : s.host.pins.rst = false
  fsm : s.eng.fsm = .frame
  ut : s.eng.cmd.ut = true
  op : s.eng.cmd.op ≠ .rsv

/-- The register after the bytes, by the table (spec R122, R124). -/
def State.tableFold (s : State) (d : List Byte) : Word := d.foldl (updT s.gen.tbl) s.eng.r

/-- The state after the bytes of a frame that goes on. -/
def State.tableBytes (s : State) (d : List Byte) : State := s.setEng { s.eng with r := s.tableFold d }

/-- The state after the bytes of a frame and its end (spec R132). -/
def State.tableFrame (s : State) (d : List Byte) : State :=
  (s.tableBytes d).setEng ((s.tableBytes d).eng.finalize (s.tableFold d))

theorem State.tableFrame_append (s : State) (d e : List Byte) :
    s.tableFrame (d ++ e) = (s.tableBytes d).tableFrame e := by
  simp only [State.tableFrame, State.tableBytes, State.tableFold, List.foldl_append]
  rfl

section OneBeat
variable {s : State} {i : Instr}

theorem State.OnTablePath.tableBytes (h : s.OnTablePath) (d : List Byte) : (s.tableBytes d).OnTablePath :=
  ⟨h.rst, h.fsm, h.ut, h.op⟩

/-- A byte beat on the table path is one table update (spec R124, R128, R129). -/
theorem State.OnTablePath.offerByte (h : s.OnTablePath) (b : Byte) (l : Bool) :
    (s.offerByte b l).eng = s.eng.tableByte s.gen.tbl b l := by
  have hready := s.inReady_iff.mpr ⟨h.rst, h.fsm⟩
  simp [State.offerByte, hready, Engine.takeByte, h.op, h.ut]

theorem State.OnTablePath.offerNoByte (h : s.OnTablePath) (l : Bool) :
    (s.offerNoByte l).eng = s.eng.takeNoByte l := by
  have hready := s.inReady_iff.mpr ⟨h.rst, h.fsm⟩
  simp [State.offerNoByte, hready]

/-- A beat with `last = 0` is its bytes (spec R128, R131). -/
theorem feedBeat_of_middle (h : s.OnTablePath) (hi : isMiddleBeat i = true) :
    feedBeat i s = .next (s.tableBytes (beatByte i)) := by
  have hafter : engineAfter i s = (s.tableBytes (beatByte i)).eng := by
    cases i <;> cases hi
    case byte b => exact h.offerByte b false
    case nullBeat x => exact h.offerNoByte false
  rw [feedBeat_eq, hafter, Engine.drain_of_ne_shift 7 (by simp [(h.tableBytes _).fsm])]
  rfl

/-- A beat with `last = 1` is its bytes and the frame's end (spec R129, R130). -/
theorem feedBeat_of_final (h : s.OnTablePath) (hi : isFinalBeat i = true) :
    feedBeat i s = .next (s.tableFrame (beatByte i)) := by
  have hafter : engineAfter i s = (s.tableFrame (beatByte i)).eng := by
    cases i <;> cases hi
    case last b => exact h.offerByte b true
    case endBeat x => exact h.offerNoByte true
  rw [feedBeat_eq, hafter, Engine.drain_of_ne_shift 7 (by simp [State.tableFrame])]
  rfl

end OneBeat

theorem feedBeats_cons {i : Instr} {s t : State} (h : feedBeat i s = .next t) (rest : List Instr) :
    feedBeats (i :: rest) s = feedBeats rest t := by
  rw [feedBeats, h]

theorem feedBeats_of_table (beats : List Instr) {s : State} (h : s.OnTablePath)
    (hframe : isFrame beats = true) : feedBeats beats s = .next (s.tableFrame (frameOf beats)) := by
  induction beats generalizing s with
  | nil => cases hframe
  | cons i rest ih =>
    cases rest with
    | nil =>
      have hfinal : feedBeat i s = .next (s.tableFrame (frameOf [i])) := by
        simpa [frameOf] using feedBeat_of_final h hframe
      rw [feedBeats_cons hfinal]
      rfl
    | cons j rest =>
      obtain ⟨hi, hrest⟩ := Bool.and_eq_true_iff.mp hframe
      have hsplit : frameOf (i :: j :: rest) = beatByte i ++ frameOf (j :: rest) := rfl
      rw [hsplit, s.tableFrame_append, feedBeats_cons (feedBeat_of_middle h hi)]
      exact ih (h.tableBytes _) hrest

/-- A table command that is not reserved, and its frame: the fold of the table's update from INIT, and the
result of it (spec R15, R122, R132). -/
theorem transact_of_table {c : Instr} {op : Op} {s : State} {beats : List Instr}
    (hop : commandOp c = some op) (htable : isTableCommand c = true) (hrsv : op ≠ .rsv)
    (hopen : s.OpenForCommand) (hframe : isFrame beats = true) :
    ∃ t, transact c beats s = .next t ∧ t.eng.fsm = .done ∧ t.eng.resValid = true ∧
      t.eng.r = regT s.gen.tbl (frameOf beats) ∧
      t.eng.res = resultOf op (commandRxfcs c) (regT s.gen.tbl (frameOf beats)) := by
  have hready := s.cmdReady_iff.mpr hopen
  have hafter : engineAfter c s = s.eng.accept op true (commandRxfcs c) := by
    cases c <;> cases htable <;> cases hop <;> simp [engineAfter, State.offerCommand, hready, commandRxfcs]
  obtain ⟨hr, -, -⟩ := hopen
  have hpath : (s.setEng (s.eng.accept op true (commandRxfcs c))).OnTablePath := ⟨hr, rfl, rfl, hrsv⟩
  have hrun : transact c beats s = .next
      ((s.setEng (s.eng.accept op true (commandRxfcs c))).tableFrame (frameOf beats)) := by
    rw [transact, exec_eq, hafter]
    exact feedBeats_of_table beats hpath hframe
  exact ⟨_, hrun, rfl, rfl, rfl, rfl⟩

/-! ### The frame "HELLO" -/

/-- Over a complete table an update is the entry function's (spec R103, R124). -/
theorem updT_of_complete {t : Table} (h : t.Complete) (r : Word) (b : Byte) :
    updT t r b = (r <<< 8) ^^^ tgen (tableIndex r b) := by
  rw [updT, h]

/-- The beats of "HELLO" (spec R83). -/
def helloBeats : List Instr := [.byte 0x48, .byte 0x45, .byte 0x4C, .byte 0x4C, .last 0x4F]

theorem regT_hello {t : Table} (h : t.Complete) : regT t (frameOf helloBeats) = 0x8CD7CDBA := by
  have hbytes : frameOf helloBeats = [0x48, 0x45, 0x4C, 0x4C, 0x4F] := rfl
  simp only [hbytes, regT, List.foldl, updT_of_complete h]
  decide

theorem transact_crcT_hello {s : State} (hopen : s.OpenForCommand) (hinv : s.Inv) :
    ∃ t, transact (.crcT 0) helloBeats s = .next t ∧
      t.eng.res = ⟨.crc, false, false, 0x73283245, 0x8CD7CDBA⟩ := by
  obtain ⟨t, hrun, -, -, -, hres⟩ :=
    transact_of_table (c := .crcT 0) (beats := helloBeats) rfl rfl (by decide) hopen rfl
  obtain ⟨-, hready, -⟩ := hopen
  rw [regT_hello (hinv.gen.ready hready)] at hres
  exact ⟨t, hrun, hres.trans (by decide)⟩

end Sys2Proof.Machine

open Sys2Proof Sys2Proof.Machine

/-- Settles O5: each listed word is evaluated; the result word is that of the table's fold over "HELLO". -/
theorem workedEncodings : Obligations.WorkedEncodings := by
  unfold Obligations.WorkedEncodings
  iterate 22 refine ⟨by decide, ?_⟩
  intro s hopen hinv
  obtain ⟨t, hrun, hres⟩ := transact_crcT_hello hopen hinv
  exact ⟨t, hrun, hres, by rw [hres]; decide⟩

end

section
/-! PROOFS. The arithmetic of the polynomial: STEP and what is built from it are linear over GF(2), and a
table entry's low byte determines its index. -/

namespace Sys2Proof.Machine

open Sys2Proof

/-! ### Linearity (spec R19, R100) -/

theorem xor_xor_xor_comm (a b c d : Word) : a ^^^ b ^^^ (c ^^^ d) = a ^^^ c ^^^ (b ^^^ d) := by
  ac_rfl

/-- STEP as one XOR: the shifted register and the polynomial, or nothing, by the bit shifted out. -/
theorem polyStep_eq_xor (r : Word) :
    polyStep r = (r <<< 1) ^^^ (if r.getLsbD 31 then Config.poly else 0) := by
  unfold polyStep
  split <;> simp

theorem polyStep_xor (a b : Word) : polyStep (a ^^^ b) = polyStep a ^^^ polyStep b := by
  have hpoly : (if (a ^^^ b).getLsbD 31 then Config.poly else 0) =
      (if a.getLsbD 31 then Config.poly else 0) ^^^ (if b.getLsbD 31 then Config.poly else 0) := by
    rw [BitVec.getLsbD_xor]
    cases a.getLsbD 31 <;> cases b.getLsbD 31 <;> simp
  simp only [polyStep_eq_xor, hpoly, BitVec.shiftLeft_xor_distrib, xor_xor_xor_comm]

theorem polySteps_xor (n : Nat) (a b : Word) :
    polySteps n (a ^^^ b) = polySteps n a ^^^ polySteps n b := by
  induction n with
  | zero => rfl
  | succ n ih => simp only [polySteps, ih, polyStep_xor]

theorem byteAtTop_xor (b c : Byte) : byteAtTop (b ^^^ c) = byteAtTop b ^^^ byteAtTop c := by
  simp only [byteAtTop, BitVec.setWidth_xor, BitVec.shiftLeft_xor_distrib]

theorem updD_xor (r q : Word) (b c : Byte) : updD (r ^^^ q) (b ^^^ c) = updD r b ^^^ updD q c := by
  rw [updD, byteAtTop_xor, xor_xor_xor_comm, polySteps_xor, updD, updD]

theorem tgen_eq_updD_zero (i : Byte) : tgen i = updD 0 i :=
  (congrArg (polySteps 8) BitVec.zero_xor).symm

theorem tgen_xor (a b : Byte) : tgen (a ^^^ b) = tgen a ^^^ tgen b := by
  rw [tgen, byteAtTop_xor, polySteps_xor, tgen, tgen]

/-! ### The low byte of an entry determines its index (spec R108) -/

/-- The polynomial's bit 0 is set, so bit 0 of STEP is the bit that was shifted out. -/
theorem polyStep_getLsbD_zero (r : Word) : (polyStep r).getLsbD 0 = r.getLsbD 31 := by
  have hpoly : Config.poly.getLsbD 0 = true := by decide
  rw [polyStep_eq_xor]
  cases r.getLsbD 31 <;> simp [hpoly]

theorem polyStep_of_top_zero {r : Word} (h : r.getLsbD 31 = false) : polyStep r = r <<< 1 := by
  rw [polyStep, h, if_neg Bool.false_ne_true]

/-- If `n` steps end with the low `n` bits zero, then no step met a set top bit: the steps were plain
shifts, and the bits shifted out were zero. -/
theorem polySteps_of_low_zero {n : Nat} {r : Word} (hn : n ≤ 32)
    (h : ∀ k < n, (polySteps n r).getLsbD k = false) :
    polySteps n r = r <<< n ∧ ∀ k < n, r.getLsbD (31 - k) = false := by
  induction n with
  | zero => simp [polySteps]
  | succ n ih =>
    have htop : (polySteps n r).getLsbD 31 = false := by
      rw [← polyStep_getLsbD_zero]
      exact h 0 n.succ_pos
    have hstep : polySteps (n + 1) r = polySteps n r <<< 1 := polyStep_of_top_zero htop
    have hlow : ∀ k < n, (polySteps n r).getLsbD k = false := by
      intro k hk
      have hshift := h (k + 1) (Nat.succ_lt_succ hk)
      rw [hstep, BitVec.getLsbD_shiftLeft] at hshift
      simpa [show k + 1 < 32 by omega] using hshift
    obtain ⟨hsteps, hzero⟩ := ih (Nat.le_of_succ_le hn) hlow
    refine ⟨by rw [hstep, hsteps, ← BitVec.shiftLeft_add], fun k hk => ?_⟩
    obtain hlt | rfl := Nat.lt_succ_iff_lt_or_eq.mp hk
    · exact hzero k hlt
    · rw [hsteps, BitVec.getLsbD_shiftLeft] at htop
      simpa [show ¬31 < k by omega] using htop

theorem byteAtTop_getLsbD (b : Byte) {k : Nat} (hk : k < 8) :
    (byteAtTop b).getLsbD (31 - k) = b.getLsbD (7 - k) := by
  have hpos : 31 - k - 24 = 7 - k := by omega
  simp [byteAtTop, hpos, show 31 - k < 32 by omega, show ¬31 - k < 24 by omega]

theorem eq_zero_of_tgen_low_zero {i : Byte} (h : (tgen i).extractLsb' 0 8 = 0#8) : i = 0#8 := by
  have hlow : ∀ k < 8, (polySteps 8 (byteAtTop i)).getLsbD k = false := by
    intro k hk
    have hbit := congrArg (fun w => w.getLsbD k) h
    simpa [tgen, hk] using hbit
  obtain ⟨-, hzero⟩ := polySteps_of_low_zero (by decide) hlow
  apply BitVec.eq_of_getLsbD_eq
  intro k hk
  have hbit := hzero (7 - k) (by omega)
  rw [byteAtTop_getLsbD i (by omega), show 7 - (7 - k) = k by omega] at hbit
  simpa using hbit

/-- Equal low bytes give an index difference whose entry has a zero low byte, by linearity. -/
theorem eq_of_tgen_low_eq {a b : Byte}
    (h : (tgen a).extractLsb' 0 8 = (tgen b).extractLsb' 0 8) : a = b := by
  have hdiff : (tgen (a ^^^ b)).extractLsb' 0 8 = 0#8 := by
    rw [tgen_xor, BitVec.extractLsb'_xor, h, BitVec.xor_self]
  exact BitVec.xor_eq_zero_iff.mp (eq_zero_of_tgen_low_zero hdiff)

end Sys2Proof.Machine

open Sys2Proof Sys2Proof.Machine

/-- Settles O41: the equation is STEP's definition; the corner cases are evaluated. -/
theorem stepOfThePolynomial : Obligations.StepOfThePolynomial :=
  ⟨fun _ => rfl, by decide, by decide, by decide, by decide⟩

/-- Settles O42: the shift is linear, and so is the choice of the polynomial by the top bit; repetition and
the byte's XOR keep linearity. -/
theorem stepIsLinear : Obligations.StepIsLinear := ⟨polyStep_xor, polySteps_xor, updD_xor⟩

/-- Settles O43: both equations are TGEN's definition; the corner cases and the trace are evaluated. -/
theorem tableEntryFunction : Obligations.TableEntryFunction := by
  refine ⟨fun _ => rfl, fun _ => rfl, ?_⟩
  decide

/-- Settles O44: linearity from STEP's, the entries evaluated, and the low bytes distinct because a zero
low byte means that no step met a set top bit. -/
theorem lawsOfTheTable : Obligations.LawsOfTheTable :=
  ⟨by decide, tgen_xor, by decide, by decide, by decide, by decide, by decide, by decide, by decide,
    by decide, tgen_eq_updD_zero, fun _ _ => eq_of_tgen_low_eq,
    fun _ _ h => eq_of_tgen_low_eq (congrArg (·.extractLsb' 0 8) h)⟩

end

section
/-! PROOFS. The generator's progress from reset, edge by edge, for every latency, and the table once it is
ready. -/

namespace Sys2Proof.Machine

open Sys2Proof

/-! ### One edge of the reference realisation (spec R102) -/

/-- With the reference latency a working edge goes on to the next entry. -/
theorem Gen.Ok.nextIndex_of_reference {g : Gen} (h : g.Ok) (hlat : g.latency = 256)
    (hb : g.tblReady = false) : g.nextIndex = g.gidx.toNat + 1 := by
  obtain ⟨-, hgidx, hphase⟩ := h.busy hb
  have hpace : g.pace = 1 := by
    rw [Gen.pace, hlat]
    omega
  rw [Gen.nextIndex, hpace]
  omega

/-! ### Many edges (spec R103 to R105) -/

theorem Gen.edges_ok {g : Gen} (h : g.Ok) (n first : Nat) : (Gen.edges n first g).Ok := by
  induction n with
  | zero => exact h
  | succ n ih => exact Gen.edge_ok ih (first + n)

/-- Once the table is ready no further edge changes the generator (spec R105). -/
theorem Gen.edges_eq_of_ready {g : Gen} {first m n : Nat} (hmn : m ≤ n)
    (h : (Gen.edges m first g).tblReady = true) : Gen.edges n first g = Gen.edges m first g := by
  induction n, hmn using Nat.le_induction with
  | base => rfl
  | succ n _ ih => rw [Gen.edges, ih, Gen.edge_of_ready _ h]

/-- Where generation stands `n` edges after reset, up to the latency: the 256 entries are spread evenly, so
`256 * n` over the latency are written and the remainder is the progress towards the next (R104; log 6). -/
structure Gen.ProgressAt (g : Gen) (latency n : Nat) : Prop where
  latency_eq : g.latency = latency
  gidx_eq : g.gidx.toNat = 256 * n / latency
  phase_eq : g.phase = 256 * n % latency
  ready_iff : g.tblReady = true ↔ n = latency

theorem Gen.progressAt_reset (latency draw : Nat) : (Gen.reset latency draw).ProgressAt latency 0 where
  latency_eq := rfl
  gidx_eq := (Nat.zero_div latency).symm
  phase_eq := (Nat.zero_mod latency).symm
  ready_iff := beq_iff_eq.trans eq_comm

/-- The next index after `n` edges: the quotients add up, and the bound of 256 is never met early. -/
theorem Gen.ProgressAt.nextIndex_eq {g : Gen} {latency n : Nat} (h : g.ProgressAt latency n)
    (hn : n < latency) : g.nextIndex = 256 * (n + 1) / latency := by
  have hpos : 0 < latency := Nat.zero_lt_of_lt hn
  have hsum : 256 * n / latency + (256 * n % latency + 256) / latency = 256 * (n + 1) / latency := by
    rw [← Nat.mul_add_div hpos, ← Nat.add_assoc, Nat.div_add_mod, Nat.mul_succ]
  have hle : 256 * (n + 1) / latency ≤ 256 :=
    Nat.div_le_of_le_mul (Nat.mul_comm latency 256 ▸ Nat.mul_le_mul_left 256 hn)
  rw [Gen.nextIndex, Gen.pace, h.latency_eq, h.gidx_eq, h.phase_eq, hsum, Nat.min_eq_right hle]

theorem Gen.ProgressAt.edge {g : Gen} {latency n : Nat} (h : g.ProgressAt latency n)
    (hn : n < latency) (draw : Nat) : (g.edge draw).ProgressAt latency (n + 1) := by
  have hbusy : g.tblReady = false := Bool.eq_false_of_not_eq_true (mt h.ready_iff.mp hn.ne)
  obtain ⟨-, -, hgidx, hready, hphase⟩ := Gen.edge_of_busy draw hbusy
  constructor
  case latency_eq => rw [Gen.edge_latency, h.latency_eq]
  case gidx_eq => rw [hgidx, Gen.nextIndex_toNat, h.nextIndex_eq hn]
  case phase_eq => rw [hphase, h.latency_eq, h.phase_eq, Nat.mod_add_mod, Nat.mul_succ]
  case ready_iff =>
    have hlast : 256 ≤ g.nextIndex ↔ latency ≤ n + 1 := by
      rw [h.nextIndex_eq hn, Nat.le_div_iff_mul_le (Nat.zero_lt_of_lt hn)]
      omega
    have hle := g.nextIndex_le
    rw [hready, beq_iff_eq]
    omega

theorem Gen.progressAt_edges (latency draw first : Nat) {n : Nat} (hn : n ≤ latency) :
    (Gen.edges n first (Gen.reset latency draw)).ProgressAt latency n := by
  induction n with
  | zero => exact Gen.progressAt_reset latency draw
  | succ n ih => exact (ih (Nat.le_of_succ_le hn)).edge hn (first + n)

/-- From the latency on the generator stands where it stood when the table became ready. -/
theorem Gen.progressAt_edges_of_ge (latency draw first : Nat) {n : Nat} (hn : latency ≤ n) :
    (Gen.edges n first (Gen.reset latency draw)).ProgressAt latency latency := by
  have hend := Gen.progressAt_edges latency draw first (Nat.le_refl latency)
  rwa [Gen.edges_eq_of_ready hn (hend.ready_iff.mpr rfl)]

theorem Gen.edges_reset_ready_iff (latency draw first n : Nat) :
    (Gen.edges n first (Gen.reset latency draw)).tblReady = true ↔ latency ≤ n := by
  obtain hlt | hge := Nat.lt_or_ge n latency
  · rw [(Gen.progressAt_edges latency draw first hlt.le).ready_iff]
    omega
  · exact iff_of_true ((Gen.progressAt_edges_of_ge latency draw first hge).ready_iff.mpr rfl) hge

theorem Gen.edges_reset_gidx_reference (draw first n : Nat) :
    (Gen.edges n first (Gen.reset 256 draw)).gidx.toNat = min n 256 := by
  obtain hle | hge := Nat.le_total n 256
  · rw [(Gen.progressAt_edges 256 draw first hle).gidx_eq]
    omega
  · rw [(Gen.progressAt_edges_of_ge 256 draw first hge).gidx_eq]
    omega

end Sys2Proof.Machine

open Sys2Proof Sys2Proof.Machine

/-- Settles O16: at the reference pace the next index is `gidx + 1`, so an edge writes exactly the entry at
`gidx`; a step with `rst = 0` makes this edge, and the count from reset is the progress at latency 256. -/
theorem referenceGeneratorWritesOneEntry : Obligations.ReferenceGeneratorWritesOneEntry := by
  refine ⟨fun g draw hok hlat hb => ?oneEntry, fun g draw hr => Gen.edge_of_ready draw hr, ?everyStep,
    fun draw first k =>
      ⟨Gen.edges_reset_gidx_reference draw first k, Gen.edges_reset_ready_iff 256 draw first k⟩⟩
  case oneEntry =>
    have hnext := hok.nextIndex_of_reference hlat hb
    obtain ⟨hfill, -, hgidx, hready, -⟩ := Gen.edge_of_busy draw hb
    have hlast : (g.edge draw).tblReady = true ↔ g.gidx = 255 := by
      rw [hready, hnext, beq_iff_eq, ← BitVec.toNat_inj]
      simp
    refine ⟨fun i => ?_, ?_, hlast, fun h => (Gen.edge_ok hok draw).ready (hlast.mpr h)⟩
    · have hhere : g.gidx.toNat ≤ i.toNat ∧ i.toNat < g.gidx.toNat + 1 ↔ i.toNat = g.gidx.toNat := by
        omega
      simp only [hfill, Gen.read_filled, hnext, hhere]
    · rw [hgidx, hnext, BitVec.ofNat_add, BitVec.ofNat_toNat, BitVec.setWidth_eq]
      rfl
  case everyStep =>
    intro s t hr hstep
    obtain ⟨hrst, -⟩ | ⟨-, -, -, rfl⟩ := step_cases hstep
    · simp [hr] at hrst
    · rfl

/-- Settles O17: the count of edges reaches the latency exactly when the index reaches 256, and a generator
that keeps its promises has a complete table then. -/
theorem tableIsReadyAfterItsLatency : Obligations.TableIsReadyAfterItsLatency := by
  intro latency draw first n
  have hready := Gen.edges_reset_ready_iff latency draw first n
  exact ⟨hready, fun hle => (Gen.edges_ok (Gen.reset_ok latency draw) n first).ready (hready.mpr hle)⟩

/-- Settles O18: the invariant after the step makes a ready table complete, and with `rst = 0` the
generator's edge leaves a ready table alone. -/
theorem readyTableIsCompleteAndImmutable : Obligations.ReadyTableIsCompleteAndImmutable := by
  intro s t hinv hstep
  have hkept : s.host.pins.rst = false → s.gen.tblReady = true → t.gen = s.gen := by
    intro hr hready
    obtain ⟨hrst, -⟩ | ⟨-, -, -, rfl⟩ := step_cases hstep
    · simp [hr] at hrst
    · exact Gen.edge_of_ready s.draws hready
  refine ⟨(stepKeepsTheInvariant s t hinv hstep).gen.ready, fun hr hready => ?_, fun hready hlost => ?_⟩
  · rw [hkept hr hready]
    exact ⟨hready, fun _ => rfl⟩
  · by_contra hr
    rw [hkept (Bool.eq_false_of_not_eq_true hr) hready, hready] at hlost
    exact Bool.noConfusion hlost

end

section
/-! PROOFS. The debug read port: it reads the table, and its address changes nothing else. -/

namespace Sys2Proof.Machine

open Sys2Proof

/-! ### The engine does not see the address (spec R107) -/

theorem State.offerCommand_eng (s : State) (op : Op) (ut : Bool) (f : Word) :
    (s.offerCommand op ut f).eng = if s.cmdReady then s.eng.accept op ut f else s.eng := by
  unfold State.offerCommand; split <;> rfl

theorem State.offerByte_eng (s : State) (b : Byte) (l : Bool) :
    (s.offerByte b l).eng = if s.inReady then s.eng.takeByte s.gen.tbl b l else s.eng := by
  unfold State.offerByte; split <;> rfl

theorem State.offerNoByte_eng (s : State) (l : Bool) :
    (s.offerNoByte l).eng = if s.inReady then s.eng.takeNoByte l else s.eng := by
  unfold State.offerNoByte; split <;> rfl

/-- The same state with another address on the debug read port. -/
def State.atDebugAddr (s : State) (a : Byte) : State := s.setPins { s.host.pins with tblRdAddr := a }

theorem engineAfter_atDebugAddr (i : Instr) (s : State) (a : Byte) :
    engineAfter i (s.atDebugAddr a) = engineAfter i s := by
  have hcmd : (s.atDebugAddr a).cmdReady = s.cmdReady := rfl
  have hin : (s.atDebugAddr a).inReady = s.inReady := rfl
  have heng : (s.atDebugAddr a).eng = s.eng := rfl
  have hgen : (s.atDebugAddr a).gen = s.gen := rfl
  cases i <;>
    simp only [engineAfter, State.offerCommand_eng, State.offerByte_eng, State.offerNoByte_eng, hcmd, hin,
      heng, hgen]

theorem State.nextEngine_atDebugAddr (s : State) (a : Byte) :
    (s.atDebugAddr a).nextEngine = s.nextEngine := by
  have hfetch : (s.atDebugAddr a).fetch = s.fetch := rfl
  have hown : (s.atDebugAddr a).ownEdge.eng = s.ownEdge.eng := by
    cases hf : s.eng.fsm with
    | idle | frame | shift => simp [State.ownEdge, State.atDebugAddr, hf]
    | done => cases hr : s.host.pins.resReady <;> simp [State.ownEdge, State.atDebugAddr, hf, hr]
  unfold State.nextEngine
  rw [hfetch, hown]
  cases s.fetch with
  | some i => exact engineAfter_atDebugAddr i s a
  | none => rfl

theorem State.hostAdvance_queue (s : State) : s.hostAdvance.queue = s.host.queue.tail := by
  unfold State.hostAdvance
  cases s.host.queue <;> rfl

/-- The host's plan and the offers it owes after an edge do not see the address either. -/
theorem State.hostAdvance_atDebugAddr (s : State) (a : Byte) :
    (s.atDebugAddr a).hostAdvance.heldCmd = s.hostAdvance.heldCmd ∧
    (s.atDebugAddr a).hostAdvance.heldBeat = s.hostAdvance.heldBeat ∧
    (s.atDebugAddr a).hostAdvance.queue = s.hostAdvance.queue := by
  simp only [State.hostAdvance_held, State.hostAdvance_queue]
  exact ⟨rfl, rfl, rfl⟩

end Sys2Proof.Machine

open Sys2Proof Sys2Proof.Machine

/-- Settles O21: the port reads the table (R32), and a ready table is complete at the port's address; the
address reaches neither the engine's action, nor the generator's edge, nor the offers owed. -/
theorem debugReadGivesTheTable : Obligations.DebugReadGivesTheTable := by
  intro s hinv
  refine ⟨fun hr hready => ?reads, fun a t hstep => ?noEffect⟩
  case reads =>
    obtain ⟨-, -, -, -, -, -, hport⟩ := (outputPortEquations s).1 hr
    have hread := hport hready
    have htgen : s.tblRdData = tgen s.host.pins.tblRdAddr := hread.trans (hinv.gen.ready hready _)
    refine ⟨hread, htgen, fun haddr => ?_⟩
    rw [htgen, haddr]
    decide
  case noEffect =>
    have hhost := s.hostAdvance_atDebugAddr a
    obtain ⟨hr, rfl⟩ | ⟨hr, hc, hb, rfl⟩ := step_cases hstep
    · exact ⟨_, step_of_rst (s := s.atDebugAddr a) hr, rfl, rfl, rfl, hhost⟩
    · exact ⟨_, step_of_clean (s := s.atDebugAddr a) hr hc hb, s.nextEngine_atDebugAddr a, rfl, rfl, hhost⟩

end

section
/-! PROOFS. The feedback form and the table-driven update are the direct update: eight steps meet only the
top byte of what is XORed into the register, and the rest of it is shifted. -/

namespace Sys2Proof.Machine

open Sys2Proof

theorem byteAtTop_shiftLeft (b : Byte) : byteAtTop b <<< 8 = 0 := by
  unfold byteAtTop
  rw [← BitVec.shiftLeft_add]
  simp

theorem byteAtTop_top (b : Byte) : (byteAtTop b).extractLsb' 24 8 = b := by
  unfold byteAtTop
  ext i hi
  simp [hi, show 24 + i < 32 by omega]

/-- STEP takes the top bit of `w` as the feedback form's input bit, and shifts the rest of `w` (spec R136). -/
theorem polyStep_xor_eq_feedbackStep (r w : Word) :
    polyStep (r ^^^ w) = feedbackStep r (w.getLsbD 31) ^^^ (w <<< 1) := by
  unfold polyStep feedbackStep
  rw [BitVec.getLsbD_xor, BitVec.shiftLeft_xor_distrib]
  split
  · ac_rfl
  · rfl

/-- The feedback form over the upper `n` bits of a byte, bit 7 first. -/
def feedbackBits (b : Byte) (n : Nat) (r : Word) : Word :=
  (List.range n).foldl (fun acc k => feedbackStep acc (b.getLsbD (7 - k))) r

theorem feedbackBits_succ (b : Byte) (n : Nat) (r : Word) :
    feedbackBits b (n + 1) r = feedbackStep (feedbackBits b n r) (b.getLsbD (7 - n)) := by
  rw [feedbackBits, List.range_succ, List.foldl_append]
  rfl

/-- `n` steps take the upper `n` bits of `w` through the feedback form, and shift the rest of `w`. -/
theorem polySteps_xor_eq_feedbackBits (r w : Word) {n : Nat} (hn : n ≤ 8) :
    polySteps n (r ^^^ w) = feedbackBits (w.extractLsb' 24 8) n r ^^^ (w <<< n) := by
  induction n with
  | zero => simp [polySteps, feedbackBits]
  | succ n ih =>
    have hbit : (w <<< n).getLsbD 31 = (w.extractLsb' 24 8).getLsbD (7 - n) := by
      rw [BitVec.getLsbD_shiftLeft, BitVec.getLsbD_extractLsb', show 24 + (7 - n) = 31 - n by omega]
      simp [show ¬31 < n by omega, show 7 - n < 8 by omega]
    rw [polySteps, ih (Nat.le_of_succ_le hn), polyStep_xor_eq_feedbackStep, hbit, feedbackBits_succ,
      BitVec.shiftLeft_add]

/-- Eight steps are the feedback form's byte update by the top byte of `w`. -/
theorem polySteps_eight_xor (r w : Word) :
    polySteps 8 (r ^^^ w) = updFeedback r (w.extractLsb' 24 8) ^^^ (w <<< 8) :=
  polySteps_xor_eq_feedbackBits r w (le_refl 8)

theorem updFeedback_eq_updD (r : Word) (b : Byte) : updFeedback r b = updD r b := by
  rw [updD, polySteps_eight_xor, byteAtTop_top, byteAtTop_shiftLeft]
  exact BitVec.xor_zero.symm

/-- The table's update over a complete table: the top byte of the register and the byte index the table,
and the rest of the register is shifted (spec R124, R135). -/
theorem updT_eq_updD {t : Table} (h : t.Complete) (r : Word) (b : Byte) : updT t r b = updD r b := by
  have hindex : (r ^^^ byteAtTop b).extractLsb' 24 8 = tableIndex r b := by
    rw [BitVec.extractLsb'_xor, byteAtTop_top]
    rfl
  have hshift : (r ^^^ byteAtTop b) <<< 8 = r <<< 8 := by
    rw [BitVec.shiftLeft_xor_distrib, byteAtTop_shiftLeft]
    exact BitVec.xor_zero
  calc updT t r b
      = (r <<< 8) ^^^ updFeedback 0 (tableIndex r b) := by
        rw [updT_of_complete h, tgen_eq_updD_zero, updFeedback_eq_updD]
    _ = updFeedback 0 (tableIndex r b) ^^^ (r <<< 8) := BitVec.xor_comm _ _
    _ = polySteps 8 (0 ^^^ (r ^^^ byteAtTop b)) := by rw [polySteps_eight_xor, hindex, hshift]
    _ = updD r b := congrArg (polySteps 8) BitVec.zero_xor

theorem regT_eq_regD {t : Table} (h : t.Complete) (d : List Byte) : regT t d = regD d := by
  have hupd : updT t = updD := funext fun r => funext fun b => updT_eq_updD h r b
  rw [regT, hupd, regD]

end Sys2Proof.Machine

open Sys2Proof Sys2Proof.Machine

/-- Settles O45: eight steps of the direct update meet only the byte that indexes the table. -/
theorem strategiesAgree : Obligations.StrategiesAgree :=
  fun _ h => ⟨updT_eq_updD h, regT_eq_regD h, fun d => congrArg crcOf (regT_eq_regD h d)⟩

/-- Settles O46: nothing of the byte is left once its eight bits are shifted out. -/
theorem feedbackFormAgrees : Obligations.FeedbackFormAgrees := updFeedback_eq_updD

end

section
/-! PROOFS. The commands: the fields a command word carries, and what its accept latches and leaves. -/

namespace Sys2Proof.Machine

open Sys2Proof

variable {c : Instr} {op : Op} {s : State}

/-- Every command is its op, strategy and received FCS on the command port (spec R77). -/
theorem engineAfter_of_command (hop : commandOp c = some op) (s : State) :
    engineAfter c s = (s.offerCommand op (isTableCommand c) (commandRxfcs c)).eng := by
  cases c <;> cases hop <;> rfl

theorem State.offerCommand_of_open (h : s.OpenForCommand) (op : Op) (ut : Bool) (f : Word) :
    s.offerCommand op ut f = s.setEng (s.eng.accept op ut f) :=
  if_pos (s.cmdReady_iff.mpr h)

/-- The decoded command's op, strategy and received FCS are the fields of the word (spec R72, R77). -/
theorem decodeCmd_fields (w : BitVec 35) :
    ∃ op, commandOp (decodeCmd w) = some op ∧ op.bits = w.extractLsb' 0 2 ∧
      isTableCommand (decodeCmd w) = w.getLsbD 2 ∧ commandRxfcs (decodeCmd w) = w.extractLsb' 3 32 := by
  have hop : w.extractLsb' 0 2 = BitVec.ofBool (w.getLsbD 1) ++ BitVec.ofBool (w.getLsbD 0) := by
    apply BitVec.eq_of_getLsbD_eq
    intro i hi
    rw [BitVec.getLsbD_extractLsb', BitVec.getLsbD_append]
    obtain rfl | rfl : i = 0 ∨ i = 1 := by omega
    · simp
    · simp
  unfold decodeCmd
  split <;> next hut h1 h0 =>
    rw [hut, hop, h1, h0]
    exact ⟨_, rfl, by decide, rfl, rfl⟩

theorem State.openForCommand_of_acceptCmd (h : s.acceptCmd = true) :
    s.OpenForCommand ∧ s.host.pins.cmdValid = true := by
  obtain ⟨hv, hready⟩ := Bool.and_eq_true_iff.mp h
  exact ⟨s.cmdReady_iff.mp hready, hv⟩

/-- An instruction that answers `t` changes nothing but the engine. -/
theorem eq_setEng_of_exec {i : Instr} {t : State} (h : exec i s = .next t) :
    t = s.setEng (engineAfter i s) := by
  rw [exec_eq] at h
  exact (Host.Outcome.next.inj h).symm

theorem State.sameButEngine_setEng (s : State) (e : Engine) : s.SameButEngine (s.setEng e) :=
  ⟨rfl, rfl, rfl, fun _ => rfl⟩

end Sys2Proof.Machine

open Sys2Proof Sys2Proof.Machine

/-- Settles O26: the step runs the decoded command, whose fields are the word's. -/
theorem commandAcceptLatchesTheWord : Obligations.CommandAcceptLatchesTheWord := by
  intro s hc hb hacc
  obtain ⟨hopen, hv⟩ := State.openForCommand_of_acceptCmd hacc
  have ⟨hr, _, hf⟩ := hopen
  obtain ⟨op, hop, hbits, hut, hrxfcs⟩ := decodeCmd_fields s.host.pins.cmdWord
  have heng : engineAfter (decodeCmd s.host.pins.cmdWord) s =
      s.eng.accept op (s.host.pins.cmdWord.getLsbD 2) (s.host.pins.cmdWord.extractLsb' 3 32) := by
    rw [engineAfter_of_command hop, State.offerCommand_of_open hopen, hut, hrxfcs, State.setEng_eng]
  refine ⟨_, step_of_fetch ⟨hr, hc, hb⟩ (State.fetch_of_idle hf hv), ?_⟩
  rw [heng]
  exact ⟨hbits, rfl, rfl, rfl, rfl, rfl, rfl, rfl, rfl, fun hinv => by simp [hinv.eng.resValid_eq, hf]⟩

/-- Settles O27: every command is accepted with its own op and strategy. -/
theorem commandsAreAccepted : Obligations.CommandsAreAccepted := by
  intro s f hopen
  have haccept := fun op ut => congrArg (Host.Outcome.next (φ := Fault) (ρ := Refusal))
    (State.offerCommand_of_open hopen op ut f)
  exact ⟨haccept .crc true, haccept .crc false, haccept .fcs true, haccept .fcs false,
    haccept .val true, haccept .val false, haccept .rsv true, haccept .rsv false⟩

/-- Settles O29: a command is accepted or waits, and its accept writes neither RES nor res_valid. -/
theorem commandFrame : Obligations.CommandFrame := by
  intro i op s t hop hexec
  obtain rfl := eq_setEng_of_exec hexec
  refine ⟨s.sameButEngine_setEng _, ?_⟩
  rw [State.setEng_eng, engineAfter_of_command hop, State.offerCommand_eng]
  split
  · exact ⟨rfl, rfl⟩
  · exact ⟨rfl, rfl⟩

end

section
/-! PROOFS. The beats: what each does on each path, what it leaves unchanged, and that it waits outside
FRAME. -/

namespace Sys2Proof.Machine

open Sys2Proof

section OneByte
variable (e : Engine) (t : Table) (b : Byte) (l : Bool)

theorem Engine.takeByte_of_rsv (ho : e.cmd.op = .rsv) : e.takeByte t b l = e.takeNoByte l := if_pos ho

theorem Engine.takeByte_of_table (hu : e.cmd.ut = true) (ho : e.cmd.op ≠ .rsv) :
    e.takeByte t b l = e.tableByte t b l := by
  simp [Engine.takeByte, hu, ho]

theorem Engine.takeByte_of_direct (hu : e.cmd.ut = false) (ho : e.cmd.op ≠ .rsv) :
    e.takeByte t b l = e.directByte b l := by
  simp [Engine.takeByte, hu, ho]

@[simp] theorem Engine.takeNoByte_cnt : (e.takeNoByte l).cnt = e.cnt := by cases l <;> rfl
@[simp] theorem Engine.takeNoByte_plast : (e.takeNoByte l).plast = e.plast := by cases l <;> rfl

@[simp] theorem Engine.takeByte_cmd : (e.takeByte t b l).cmd = e.cmd := by
  obtain ⟨-, h⟩ | ⟨-, -, h⟩ | ⟨-, -, h⟩ := e.takeByte_cases t b l <;> simp [h]

@[simp] theorem Engine.takeByte_rxfcs : (e.takeByte t b l).rxfcs = e.rxfcs := by
  obtain ⟨-, h⟩ | ⟨-, -, h⟩ | ⟨-, -, h⟩ := e.takeByte_cases t b l <;> simp [h]

/-- A BYTE beat writes no result on any path (spec R124, R125, R128). -/
theorem Engine.takeByte_result_of_middle :
    (e.takeByte t b false).res = e.res ∧ (e.takeByte t b false).resValid = e.resValid := by
  obtain ⟨-, h⟩ | ⟨-, -, h⟩ | ⟨-, -, h⟩ := e.takeByte_cases t b false <;> rw [h]
  · exact ⟨rfl, rfl⟩
  · exact ⟨rfl, rfl⟩
  · exact ⟨rfl, rfl⟩

/-- Only the direct path counts its steps (spec R125, R129, R166). -/
theorem Engine.takeByte_count_of_table_or_rsv (h : e.cmd.ut = true ∨ e.cmd.op = .rsv) :
    (e.takeByte t b l).cnt = e.cnt ∧ (e.takeByte t b l).plast = e.plast := by
  by_cases ho : e.cmd.op = .rsv
  · simp [takeByte_of_rsv e t b l ho]
  · rw [takeByte_of_table e t b l (h.resolve_right ho) ho]
    cases l <;> exact ⟨rfl, rfl⟩

end OneByte

section OpenChannel
variable {s : State}

theorem State.offerByte_of_open (h : s.OpenForBeat) (b : Byte) (l : Bool) :
    s.offerByte b l = s.setEng (s.eng.takeByte s.gen.tbl b l) :=
  if_pos (s.inReady_iff.mpr h)

theorem State.offerNoByte_of_open (h : s.OpenForBeat) (l : Bool) :
    s.offerNoByte l = s.setEng (s.eng.takeNoByte l) :=
  if_pos (s.inReady_iff.mpr h)

/-- A NULL beat does nothing, taken or waiting (spec R131). -/
theorem engineAfter_nullBeat (s : State) (x : Byte) : engineAfter (.nullBeat x) s = s.eng := by
  rw [engineAfter, State.offerNoByte_eng]
  exact ite_self _

end OpenChannel

end Sys2Proof.Machine

open Sys2Proof Sys2Proof.Machine

/-- Settles O25: with no beat offered the engine's next state is its state, and a ready generator rests. -/
theorem frameHoldsWhileNoBeatIsOffered : Obligations.FrameHoldsWhileNoBeatIsOffered := by
  intro s hclean hf hv
  obtain ⟨hr, hc, hb⟩ := hclean
  have hnext : s.nextEngine = s.eng := by simp [State.nextEngine_of_frame hf, State.acceptIn, hv]
  refine ⟨_, step_of_clean hr hc hb, ?_⟩
  rw [hnext]
  exact ⟨rfl, rfl, rfl, rfl, rfl, rfl, rfl, hf, Gen.edge_of_ready s.draws⟩

/-- Settles O30: the beat is taken on the table path. -/
theorem tablePathTakesAByte : Obligations.TablePathTakesAByte := by
  intro s b hopen hu ho
  have htake : ∀ l, s.offerByte b l = s.setEng (s.eng.tableByte s.gen.tbl b l) := by
    intro l
    rw [State.offerByte_of_open hopen, Engine.takeByte_of_table _ _ _ _ hu ho]
  refine ⟨congrArg _ (htake false), congrArg _ (htake true), fun hcomplete => ?_⟩
  rw [updT_of_complete hcomplete]
  decide

/-- Settles O31: the beat is taken on the direct path. -/
theorem directPathTakesAByte : Obligations.DirectPathTakesAByte := by
  intro s b hopen hu ho
  have htake : ∀ l, s.offerByte b l = s.setEng (s.eng.directByte b l) := by
    intro l
    rw [State.offerByte_of_open hopen, Engine.takeByte_of_direct _ _ _ _ hu ho]
  exact ⟨congrArg _ (htake false), congrArg _ (htake true)⟩

/-- Settles O33: END is FINALIZE with the register's own value, whose result goes by the op. -/
theorem endFinalisesPerOp : Obligations.EndFinalisesPerOp := by
  intro s x hopen
  have hend : exec (.endBeat x) s = .next (s.setEng (s.eng.finalize s.eng.r)) :=
    congrArg _ (State.offerNoByte_of_open hopen true)
  rw [hend]
  refine congrArg (fun res => Host.Outcome.next
    (s.setEng { s.eng with res := res, resValid := true, fsm := .done })) ?_
  cases s.eng.cmd.op <;> rfl

/-- Settles O36: in reset or outside FRAME `in_ready` is 0, and a beat that is not taken waits. -/
theorem beatsWaitOutsideFrame : Obligations.BeatsWaitOutsideFrame := by
  intro s b hclosed
  have hready : s.inReady = false := by
    obtain hr | hf := hclosed
    · simp [State.inReady, hr]
    · simp [State.inReady, hf]
  have hbyte : ∀ l, s.offerByte b l = s := fun l => if_neg (Bool.eq_false_iff.mp hready)
  have hnoByte : ∀ l, s.offerNoByte l = s := fun l => if_neg (Bool.eq_false_iff.mp hready)
  exact ⟨hready, congrArg _ (hbyte false), congrArg _ (hbyte true), congrArg _ (hnoByte true),
    congrArg _ (hnoByte false)⟩

/-- Settles O37: a beat that is taken leaves what its path leaves, and one that waits leaves everything. -/
theorem beatFrame : Obligations.BeatFrame := by
  intro s t b
  refine ⟨fun hexec => ?byte, fun hexec => ?last, fun hexec => ?endBeat, fun hexec => ?nullBeat⟩ <;>
    obtain rfl := eq_setEng_of_exec hexec
  case byte =>
    refine ⟨s.sameButEngine_setEng _, ?_⟩
    rw [State.setEng_eng, engineAfter, State.offerByte_eng]
    split
    case isTrue =>
      obtain ⟨hres, hvalid⟩ := s.eng.takeByte_result_of_middle s.gen.tbl b
      refine ⟨by simp, by simp, hres, hvalid, fun hpath => ?_⟩
      obtain ⟨hcnt, hplast⟩ := s.eng.takeByte_count_of_table_or_rsv s.gen.tbl b false hpath
      exact ⟨hcnt, hplast, Engine.takeByte_fsm_of_table_or_rsv _ _ _ _ hpath⟩
    case isFalse => exact ⟨rfl, rfl, rfl, rfl, fun _ => ⟨rfl, rfl, rfl⟩⟩
  case last =>
    refine ⟨s.sameButEngine_setEng _, ?_⟩
    rw [State.setEng_eng, engineAfter, State.offerByte_eng]
    split
    case isTrue =>
      refine ⟨by simp, by simp, s.eng.takeByte_count_of_table_or_rsv _ _ _, fun hu ho => ?_⟩
      rw [Engine.takeByte_of_direct _ _ _ _ hu ho]
      exact ⟨rfl, rfl⟩
    case isFalse => exact ⟨rfl, rfl, fun _ => ⟨rfl, rfl⟩, fun _ _ => ⟨rfl, rfl⟩⟩
  case endBeat =>
    refine ⟨s.sameButEngine_setEng _, ?_⟩
    rw [State.setEng_eng, engineAfter, State.offerNoByte_eng]
    split
    case isTrue => exact ⟨rfl, rfl, rfl, rfl, rfl⟩
    case isFalse => exact ⟨rfl, rfl, rfl, rfl, rfl⟩
  case nullBeat =>
    rw [engineAfter_nullBeat, State.setEng_self]

end

section
/-! PROOFS. The engine's own edges, and a byte with the shift cycles that follow it: one update of the
register on every path, after which the beat's `last` bit acts as it does on a beat without a byte. -/

namespace Sys2Proof.Machine

open Sys2Proof

/-! ### The direct path's eight cycles (spec R125 to R127) -/

section DirectByte
variable (e : Engine) (b : Byte) (l : Bool)

/-- The engine `n` shift cycles after the accept cycle of a byte. -/
def Engine.shifting (n : Nat) : Engine :=
  { e with
    r := polySteps (n + 1) (e.r ^^^ byteAtTop b), cnt := BitVec.ofNat 3 (7 - n), plast := l, fsm := .shift }

/-- The engine after a byte's eight cycles, in a frame that goes on. -/
def Engine.directDone : Engine := { e with r := updD e.r b, cnt := 0, plast := false, fsm := .frame }

theorem Engine.shifting_shiftStep {n : Nat} (hn : n < 6) :
    (e.shifting b l n).shiftStep = e.shifting b l (n + 1) := by
  have hcnt : 1 < BitVec.ofNat 3 (7 - n) ∧ BitVec.ofNat 3 (7 - n) - 1 = BitVec.ofNat 3 (7 - (n + 1)) := by
    interval_cases n <;> decide
  obtain ⟨habove, hless⟩ : 1 < (e.shifting b l n).cnt ∧
      (e.shifting b l n).cnt - 1 = (e.shifting b l (n + 1)).cnt := hcnt
  rw [shiftStep_eq, if_pos habove, hless]
  rfl

/-- The eighth step empties the count, and the byte's `last` bit ends the frame (spec R126). -/
theorem Engine.shifting_six_shiftStep : (e.shifting b l 6).shiftStep = (e.directDone b).takeNoByte l := by
  cases l <;> rfl

theorem Engine.drain_directByte_of_lt {n : Nat} (hn : n < 7) :
    (e.directByte b l).drain n = e.shifting b l n := by
  induction n with
  | zero => rfl
  | succ n ih =>
    rw [drain_add, ih (Nat.lt_of_succ_lt hn), drain_succ_of_shift 0 rfl,
      shifting_shiftStep e b l (Nat.lt_of_succ_lt_succ hn)]
    rfl

theorem Engine.drain_directByte : (e.directByte b l).drain 7 = (e.directDone b).takeNoByte l := by
  rw [drain_add 6 1, drain_directByte_of_lt e b l (by decide), drain_succ_of_shift 0 rfl,
    shifting_six_shiftStep]
  rfl

end DirectByte

/-! ### A byte on every path (spec R128, R129) -/

/-- The register after a byte of a frame, by the latched command (spec R123, R124, R166). -/
def Cmd.update (c : Cmd) (t : Table) (r : Word) (b : Byte) : Word :=
  if c.op = .rsv then r else if c.ut then updT t r b else updD r b

/-- The engine after a byte of a frame that goes on, the shift cycles included. -/
def Engine.byteDone (t : Table) (e : Engine) (b : Byte) : Engine :=
  if e.cmd.op = .rsv then e else if e.cmd.ut then { e with r := updT t e.r b } else e.directDone b

section ByteDone
variable (t : Table) (e : Engine) (b : Byte) (l : Bool)

@[simp] theorem Engine.byteDone_r : (e.byteDone t b).r = e.cmd.update t e.r b := by
  unfold byteDone Cmd.update
  split_ifs <;> rfl

@[simp] theorem Engine.byteDone_cmd : (e.byteDone t b).cmd = e.cmd := by
  unfold byteDone
  split_ifs <;> rfl

@[simp] theorem Engine.byteDone_rxfcs : (e.byteDone t b).rxfcs = e.rxfcs := by
  unfold byteDone
  split_ifs <;> rfl

theorem Engine.byteDone_fsm {e : Engine} (hf : e.fsm = .frame) : (e.byteDone t b).fsm = .frame := by
  unfold byteDone
  split_ifs
  · exact hf
  · exact hf
  · rfl

/-- A beat without a byte is followed by no shift cycle. -/
theorem Engine.drain_takeNoByte {e : Engine} (hf : e.fsm = .frame) (n : Nat) :
    (e.takeNoByte l).drain n = e.takeNoByte l :=
  drain_of_ne_shift n (by cases l <;> simp [hf])

/-- A byte and the shift cycles that follow it, on every path. -/
theorem Engine.drain_takeByte {e : Engine} (hf : e.fsm = .frame) :
    (e.takeByte t b l).drain 7 = (e.byteDone t b).takeNoByte l := by
  unfold byteDone
  split
  case isTrue ho => rw [takeByte_of_rsv e t b l ho, drain_takeNoByte l hf]
  case isFalse ho =>
    split
    case isTrue hu =>
      have htable : e.tableByte t b l = ({ e with r := updT t e.r b } : Engine).takeNoByte l := rfl
      rw [takeByte_of_table e t b l hu ho, htable]
      exact drain_takeNoByte (e := { e with r := updT t e.r b }) l hf 7
    case isFalse hu =>
      rw [takeByte_of_direct e t b l (Bool.eq_false_iff.mpr hu) ho, drain_directByte]

end ByteDone

end Sys2Proof.Machine

open Sys2Proof Sys2Proof.Machine

/-- Settles O38: in SHIFT the step is the shift cycle, whose FINALIZE takes the new register value. -/
theorem shiftCycle : Obligations.ShiftCycle := by
  intro s hclean _ hf
  obtain ⟨hr, hc, hb⟩ := hclean
  exact ⟨by simp [State.inReady, hf], _, step_of_clean hr hc hb,
    (State.nextEngine_of_shift hf).trans (Engine.shiftStep_eq s.eng)⟩

/-- Settles O39: in DONE the result is valid, and it goes exactly if the host takes it. -/
theorem resultIsHeldUntilTaken : Obligations.ResultIsHeldUntilTaken := by
  intro s hclean hinv hf
  obtain ⟨hr, hc, hb⟩ := hclean
  have hvalid : s.eng.resValid = true := by simp [hinv.eng.resValid_eq, hf]
  exact ⟨hvalid, by simp [State.acceptRes, State.resValidOut, hr, hvalid], _, step_of_clean hr hc hb,
    State.nextEngine_of_done hf⟩

/-- Settles O40: after `n < 7` shift cycles `n + 1` steps are done; the eighth leaves SHIFT. -/
theorem eightCyclesAreOneDirectUpdate : Obligations.EightCyclesAreOneDirectUpdate := by
  intro e b l
  rw [Engine.drain_directByte]
  refine ⟨by simp [Engine.directDone], ?_, fun n hn => ?_⟩
  · cases l <;> rfl
  · rw [Engine.drain_directByte_of_lt e b l hn]
    rfl

end

section
/-! PROOFS. A whole transaction on every path: the beats of a frame update the register by their bytes, and
the frame's end writes the result. -/

namespace Sys2Proof.Machine

open Sys2Proof

/-- The state after the bytes of a frame that goes on, the shift cycles included. -/
def State.bytesDone (s : State) (d : List Byte) : State :=
  s.setEng (d.foldl (Engine.byteDone s.gen.tbl) s.eng)

/-- The state after the bytes of a frame and its end (spec R132). -/
def State.frameDone (s : State) (d : List Byte) : State :=
  (s.bytesDone d).setEng ((s.bytesDone d).eng.finalize (s.bytesDone d).eng.r)

theorem State.frameDone_append (s : State) (d e : List Byte) :
    s.frameDone (d ++ e) = (s.bytesDone d).frameDone e := by
  simp only [State.frameDone, State.bytesDone, List.foldl_append]
  rfl

/-- Over the bytes of a frame the engine stays in FRAME under the latched command, and its register folds
the command's update (spec R122). -/
theorem Engine.foldl_byteDone (t : Table) (d : List Byte) {e : Engine} (hf : e.fsm = .frame) :
    (d.foldl (byteDone t) e).fsm = .frame ∧ (d.foldl (byteDone t) e).cmd = e.cmd ∧
    (d.foldl (byteDone t) e).rxfcs = e.rxfcs ∧ (d.foldl (byteDone t) e).r = d.foldl (e.cmd.update t) e.r := by
  induction d generalizing e with
  | nil => exact ⟨hf, rfl, rfl, rfl⟩
  | cons b d ih => simpa using ih (byteDone_fsm t b hf)

/-- The state after a beat and the shift cycles that follow it. -/
def State.afterBeat (s : State) (i : Instr) : State := s.setEng ((engineAfter i s).drain 7)

theorem feedBeats_eq_foldl (beats : List Instr) (s : State) :
    feedBeats beats s = .next (beats.foldl State.afterBeat s) := by
  induction beats generalizing s with
  | nil => rfl
  | cons i rest ih => rw [feedBeats_cons (feedBeat_eq i s), ih]; rfl

section OneBeat
variable {s : State} {i : Instr}

theorem State.bytesDone_open (h : s.OpenForBeat) (d : List Byte) : (s.bytesDone d).OpenForBeat := by
  obtain ⟨hf, -⟩ := Engine.foldl_byteDone s.gen.tbl d h.2
  exact ⟨h.1, hf⟩

theorem State.frameDone_res (h : s.OpenForBeat) (d : List Byte) :
    (s.frameDone d).eng.res = resultOf s.eng.cmd.op s.eng.rxfcs (s.frameDone d).eng.r := by
  obtain ⟨-, hcmd, hrxfcs, -⟩ := Engine.foldl_byteDone s.gen.tbl d h.2
  rw [← hcmd, ← hrxfcs]
  rfl

theorem State.frameDone_r (h : s.OpenForBeat) (d : List Byte) :
    (s.frameDone d).eng.r = d.foldl (s.eng.cmd.update s.gen.tbl) s.eng.r := by
  obtain ⟨-, -, -, hr⟩ := Engine.foldl_byteDone s.gen.tbl d h.2
  exact hr

/-- A byte beat and the shift cycles that follow it. -/
theorem State.drain_offerByte (h : s.OpenForBeat) (b : Byte) (l : Bool) :
    (s.offerByte b l).eng.drain 7 = (s.eng.byteDone s.gen.tbl b).takeNoByte l := by
  rw [State.offerByte_of_open h, State.setEng_eng, Engine.drain_takeByte _ _ _ h.2]

theorem State.drain_offerNoByte (h : s.OpenForBeat) (l : Bool) :
    (s.offerNoByte l).eng.drain 7 = s.eng.takeNoByte l := by
  rw [State.offerNoByte_of_open h, State.setEng_eng, Engine.drain_takeNoByte _ h.2]

/-- A beat with `last = 0` is its bytes (spec R128, R131). -/
theorem State.afterBeat_of_middle (h : s.OpenForBeat) (hi : isMiddleBeat i = true) :
    s.afterBeat i = s.bytesDone (beatByte i) := by
  cases i <;> cases hi
  case byte b => exact congrArg s.setEng (State.drain_offerByte h b false)
  case nullBeat x => exact congrArg s.setEng (State.drain_offerNoByte h false)

/-- A beat with `last = 1` is its bytes and the frame's end (spec R129, R130). -/
theorem State.afterBeat_of_final (h : s.OpenForBeat) (hi : isFinalBeat i = true) :
    s.afterBeat i = s.frameDone (beatByte i) := by
  cases i <;> cases hi
  case last b => exact congrArg s.setEng (State.drain_offerByte h b true)
  case endBeat x => exact congrArg s.setEng (State.drain_offerNoByte h true)

end OneBeat

/-- The beats of a whole frame are its bytes and its end, wherever NULL beats stand (spec R15, R62). -/
theorem State.foldl_afterBeat_of_frame (beats : List Instr) {s : State} (h : s.OpenForBeat)
    (hframe : isFrame beats = true) : beats.foldl State.afterBeat s = s.frameDone (frameOf beats) := by
  induction beats generalizing s with
  | nil => cases hframe
  | cons i rest ih =>
    cases rest with
    | nil => simpa [frameOf] using State.afterBeat_of_final h hframe
    | cons j rest =>
      obtain ⟨hi, hrest⟩ := Bool.and_eq_true_iff.mp hframe
      have hsplit : frameOf (i :: j :: rest) = beatByte i ++ frameOf (j :: rest) := rfl
      rw [hsplit, s.frameDone_append, List.foldl_cons, State.afterBeat_of_middle h hi]
      exact ih (State.bytesDone_open h _) hrest

/-- A command and its frame: the fold of the command's update from INIT, the result of it, and nothing
changed but the engine (spec R15, R122, R132). -/
theorem transact_of_command {c : Instr} {op : Op} {s : State} {beats : List Instr}
    (hop : commandOp c = some op) (hopen : s.OpenForCommand) (hframe : isFrame beats = true) :
    ∃ e : Engine, transact c beats s = .next (s.setEng e) ∧ e.fsm = .done ∧ e.resValid = true ∧
      e.r = (frameOf beats).foldl (Cmd.update ⟨op, isTableCommand c⟩ s.gen.tbl) Config.init ∧
      e.res = resultOf op (commandRxfcs c) e.r := by
  have hafter : engineAfter c s = s.eng.accept op (isTableCommand c) (commandRxfcs c) := by
    rw [engineAfter_of_command hop, State.offerCommand_of_open hopen, State.setEng_eng]
  have hbeat : (s.setEng (s.eng.accept op (isTableCommand c) (commandRxfcs c))).OpenForBeat :=
    ⟨hopen.1, rfl⟩
  have hrun : transact c beats s = .next
      ((s.setEng (s.eng.accept op (isTableCommand c) (commandRxfcs c))).frameDone (frameOf beats)) := by
    rw [transact, exec_eq, hafter]
    exact (feedBeats_eq_foldl _ _).trans (congrArg _ (State.foldl_afterBeat_of_frame beats hbeat hframe))
  exact ⟨_, hrun, rfl, rfl, State.frameDone_r hbeat _, State.frameDone_res hbeat _⟩

/-! ### The command's update -/

theorem Cmd.update_of_direct {c : Cmd} (hu : c.ut = false) (ho : c.op ≠ .rsv) (t : Table) :
    c.update t = updD := by
  funext r b
  simp [update, hu, ho]

/-- Over a complete table the strategy makes no difference (spec R135). -/
theorem Cmd.update_of_complete {t : Table} (h : t.Complete) {c : Cmd} (ho : c.op ≠ .rsv) :
    c.update t = updD := by
  funext r b
  simp [update, ho, updT_eq_updD h]

/-- A direct command that is not reserved, and its frame (spec R140, R162, R165). -/
theorem transact_of_direct {c : Instr} {op : Op} {s : State} {beats : List Instr}
    (hop : commandOp c = some op) (hdirect : isTableCommand c = false) (hrsv : op ≠ .rsv)
    (hopen : s.OpenForCommand) (hframe : isFrame beats = true) :
    ∃ t, transact c beats s = .next t ∧ t.eng.fsm = .done ∧ t.eng.resValid = true ∧
      t.eng.r = regD (frameOf beats) ∧
      t.eng.res = resultOf op (commandRxfcs c) (regD (frameOf beats)) := by
  obtain ⟨e, hrun, hfsm, hvalid, hr, hres⟩ := transact_of_command hop hopen hframe
  rw [Cmd.update_of_direct hdirect hrsv] at hr
  rw [hr] at hres
  exact ⟨_, hrun, hfsm, hvalid, hr, hres⟩

theorem resultOf_crc {op : Op} (ho : op ≠ .rsv) (f rn : Word) : (resultOf op f rn).crc = crcOf rn := by
  cases op with
  | rsv => exact absurd rfl ho
  | crc | fcs | val => rfl

/-! ### NULL beats (spec R131) -/

theorem isMiddleBeat_or_isFinalBeat {i : Instr} (h : commandOp i = none) :
    isMiddleBeat i = true ∨ isFinalBeat i = true := by
  cases i <;> cases h
  case byte | nullBeat => exact .inl rfl
  case last | endBeat => exact .inr rfl

theorem engineAfter_of_waiting_beat {i : Instr} {s : State} (h : commandOp i = none)
    (hready : s.inReady = false) : engineAfter i s = s.eng := by
  cases i <;> cases h <;> simp [engineAfter, State.offerByte_eng, State.offerNoByte_eng, hready]

/-- No instruction leaves the engine in SHIFT once its shift cycles are done. -/
theorem State.afterBeat_fsm_ne_shift {s : State} (hf : s.eng.fsm ≠ .shift) (i : Instr) :
    (s.afterBeat i).eng.fsm ≠ .shift := by
  have hkeep : ∀ e : Engine, e.fsm ≠ .shift → (e.drain 7).fsm ≠ .shift := fun e he => by
    rwa [Engine.drain_of_ne_shift 7 he]
  cases hop : commandOp i with
  | some op =>
    apply hkeep
    rw [engineAfter_of_command hop, State.offerCommand_eng]
    split
    · simp
    · exact hf
  | none =>
    cases hready : s.inReady with
    | false =>
      apply hkeep
      rwa [engineAfter_of_waiting_beat hop hready]
    | true =>
      have hopen := s.inReady_iff.mp hready
      obtain hi | hi := isMiddleBeat_or_isFinalBeat hop
      · rw [State.afterBeat_of_middle hopen hi, (State.bytesDone_open hopen _).2]
        decide
      · rw [State.afterBeat_of_final hopen hi]
        exact Fsm.noConfusion

theorem State.foldl_afterBeat_fsm_ne_shift (beats : List Instr) {s : State} (hf : s.eng.fsm ≠ .shift) :
    (beats.foldl State.afterBeat s).eng.fsm ≠ .shift := by
  induction beats generalizing s with
  | nil => exact hf
  | cons i rest ih => exact ih (State.afterBeat_fsm_ne_shift hf i)

theorem State.afterBeat_nullBeat {s : State} (hf : s.eng.fsm ≠ .shift) (x : Byte) :
    s.afterBeat (.nullBeat x) = s := by
  rw [State.afterBeat, engineAfter_nullBeat, Engine.drain_of_ne_shift 7 hf, State.setEng_self]

theorem State.foldl_afterBeat_nullBeats {s : State} (hf : s.eng.fsm ≠ .shift) (x : Byte) (n : Nat) :
    (List.replicate n (.nullBeat x)).foldl State.afterBeat s = s := by
  induction n with
  | zero => rfl
  | succ n ih => rw [List.replicate_succ, List.foldl_cons, State.afterBeat_nullBeat hf, ih]

end Sys2Proof.Machine

open Sys2Proof Sys2Proof.Machine

/-- Settles O34: on every path the byte's `last` bit acts as END does after it. -/
theorem endAfterByteEqualsLast : Obligations.EndAfterByteEqualsLast := by
  intro s b x hopen _
  have hbyte : s.afterBeat (.byte b) = s.bytesDone [b] := State.afterBeat_of_middle hopen rfl
  have hend : (s.bytesDone [b]).afterBeat (.endBeat x) = (s.bytesDone [b]).frameDone [] :=
    State.afterBeat_of_final (State.bytesDone_open hopen [b]) rfl
  have hlast : s.afterBeat (.last b) = s.frameDone [b] := State.afterBeat_of_final hopen rfl
  simp only [feedBeats_eq_foldl, List.foldl, hbyte, hend, hlast]
  exact congrArg _ (s.frameDone_append [b] []).symm

/-- Settles O35: a NULL beat leaves the state, and no beat before it leaves the engine in SHIFT. -/
theorem nullBeatsLeaveNoTrace : Obligations.NullBeatsLeaveNoTrace := by
  refine ⟨fun s x hopen => ?_, fun s before after x n hf => ?_⟩
  · exact congrArg _ (State.offerNoByte_of_open hopen false)
  · have hnull := State.foldl_afterBeat_nullBeats (State.foldl_afterBeat_fsm_ne_shift before hf) x n
    simp only [feedBeats_eq_foldl, List.foldl_append, hnull]

/-- Settles O49: the three table commands, and the result their op gives. -/
theorem tableStrategyTransactions : Obligations.TableStrategyTransactions :=
  fun _ f _ hopen hframe =>
    ⟨transact_of_table (c := .crcT f) rfl rfl (by decide) hopen hframe,
      transact_of_table (c := .fcsT f) rfl rfl (by decide) hopen hframe,
      transact_of_table (c := .valT f) rfl rfl (by decide) hopen hframe⟩

/-- Settles O50: the three direct commands, and the result their op gives. -/
theorem directStrategyTransactions : Obligations.DirectStrategyTransactions :=
  fun _ f _ hopen hframe =>
    ⟨transact_of_direct (c := .crcD f) rfl rfl (by decide) hopen hframe,
      transact_of_direct (c := .fcsD f) rfl rfl (by decide) hopen hframe,
      transact_of_direct (c := .valD f) rfl rfl (by decide) hopen hframe⟩

/-- Settles O52: the reserved op's result is fixed, and over the complete table of an open state every
other command folds the direct update. -/
theorem resultDependsOnOpFcsAndFrame : Obligations.ResultDependsOnOpFcsAndFrame := by
  intro c op s beats hop hopen hinv hframe
  have ⟨_, hready, _⟩ := hopen
  obtain ⟨e, hrun, -, -, hr, hres⟩ := transact_of_command hop hopen hframe
  refine ⟨_, hrun, hres.trans ?_, rfl, rfl, rfl⟩
  by_cases hrsv : op = .rsv
  · subst hrsv
    rfl
  · rw [hr, Cmd.update_of_complete (hinv.gen.ready hready) hrsv]
    rfl

/-- Settles O55: END alone is a frame with no bytes, so the register is still INIT. -/
theorem emptyFrameGivesZero : Obligations.EmptyFrameGivesZero := by
  refine ⟨rfl, fun _ => rfl, fun c op s x hop hrsv hopen => ?_⟩
  obtain ⟨e, hrun, -, -, hr, hres⟩ := transact_of_command (beats := [.endBeat x]) hop hopen rfl
  have hinit : e.r = 0xFFFFFFFF := hr
  refine ⟨_, hrun, hinit, ?_⟩
  rw [State.setEng_eng, hres, resultOf_crc hrsv, hinit]
  decide

end

section
/-! PROOFS. The validator: the FCS is the final register, a register meets its own bytes and ends at 0, the
reserved op keeps `R` at INIT, and a validation compares the received FCS with the calculated one. -/

namespace Sys2Proof.Machine

open Sys2Proof

/-! ### CRC and FCS (spec R160, R167) -/

@[simp] theorem fcsOf_crcOf (r : Word) : fcsOf (crcOf r) = r := by
  rw [fcsOf, crcOf, BitVec.xor_assoc]
  exact BitVec.xor_zero

theorem fcsOf_eq_not (crc : Word) : fcsOf crc = ~~~crc := BitVec.xor_allOnes

theorem fcsOf_xor_self (crc : Word) : fcsOf crc ^^^ crc = 0xFFFFFFFF := by
  rw [fcsOf, BitVec.xor_comm, ← BitVec.xor_assoc, BitVec.xor_self, BitVec.zero_xor, Config.fcsXor]

theorem resultOf_fcs {op : Op} (ho : op ≠ .rsv) (f rn : Word) :
    (resultOf op f rn).fcs = fcsOf (resultOf op f rn).crc := by
  cases op with
  | rsv => exact absurd rfl ho
  | crc | fcs | val => rfl

/-! ### The residue (spec R171) -/

/-- The direct update as one shift and one table entry (spec R124, R135). -/
theorem updD_eq_xor_tgen (r : Word) (b : Byte) : updD r b = (r <<< 8) ^^^ tgen (tableIndex r b) := by
  rw [← updT_eq_updD Table.read_generated, updT_of_complete Table.read_generated]

/-- A byte equal to the register's top byte cancels it, so that the update is a plain shift. -/
theorem updD_top (r : Word) : updD r (r.extractLsb' 24 8) = r <<< 8 := by
  have hzero : tgen 0#8 = 0 := by decide
  rw [updD_eq_xor_tgen, tableIndex, BitVec.xor_self, hzero]
  exact BitVec.xor_zero

theorem extractLsb'_top_shiftLeft (r : Word) {n : Nat} (hn : n ≤ 24) :
    (r <<< n).extractLsb' 24 8 = r.extractLsb' (24 - n) 8 := by
  apply BitVec.eq_of_getLsbD_eq
  intro k hk
  have hpos : 24 + k - n = 24 - n + k := by omega
  simp [hk, hpos, show 24 + k < 32 by omega, show ¬24 + k < n by omega, show 24 - n + k < 32 by omega]

/-- A register that is fed its own four bytes, the top one first, is shifted out. -/
theorem foldl_updD_fcsBytes (r : Word) : (fcsBytes .msbFirst r).foldl updD r = 0 := by
  have hshift : ∀ n ≤ 24, updD (r <<< n) (r.extractLsb' (24 - n) 8) = r <<< (n + 8) := by
    intro n hn
    rw [← extractLsb'_top_shiftLeft r hn, updD_top, ← BitVec.shiftLeft_add]
  calc (fcsBytes .msbFirst r).foldl updD r
      = updD (updD (updD (updD r (r.extractLsb' 24 8)) (r.extractLsb' 16 8)) (r.extractLsb' 8 8))
          (r.extractLsb' 0 8) := rfl
    _ = r <<< 32 := by
        rw [updD_top, hshift 8 (by decide), hshift 16 (by decide), hshift 24 (by decide)]
    _ = 0 := BitVec.shiftLeft_eq_zero (le_refl 32)

theorem regD_append_fcs (d : List Byte) :
    regD (d ++ fcsBytes .msbFirst (fcsOf (crcOf (regD d)))) = 0 := by
  rw [fcsOf_crcOf, regD, List.foldl_append]
  exact foldl_updD_fcsBytes (regD d)

/-! ### The reserved op (spec R166) -/

theorem State.offerByte_of_rsv {s : State} (hopen : s.OpenForBeat) (ho : s.eng.cmd.op = .rsv) (b : Byte)
    (l : Bool) : s.offerByte b l = s.offerNoByte l := by
  rw [State.offerByte_of_open hopen, State.offerNoByte_of_open hopen, Engine.takeByte_of_rsv _ _ _ _ ho]

/-- The frame's end under the reserved op: FINALIZE writes the error result. -/
theorem State.offerNoByte_last_of_rsv {s : State} (hopen : s.OpenForBeat) (ho : s.eng.cmd.op = .rsv) :
    s.offerNoByte true =
      s.setEng { s.eng with res := ⟨.rsv, true, false, 0, 0⟩, resValid := true, fsm := .done } := by
  have hend : s.eng.takeNoByte true = s.eng.finalize s.eng.r := rfl
  rw [State.offerNoByte_of_open hopen, hend, Engine.finalize, ho, resultOf_rsv]

theorem Cmd.foldl_update_of_rsv {c : Cmd} (ho : c.op = .rsv) (t : Table) (d : List Byte) (r : Word) :
    d.foldl (c.update t) r = r := by
  induction d with
  | nil => rfl
  | cons b d ih => rwa [List.foldl_cons, Cmd.update, if_pos ho]

/-- A reserved command and its frame: the register stays INIT, and the result word is 7. -/
theorem transact_of_rsv {c : Instr} {s : State} {beats : List Instr} (hop : commandOp c = some .rsv)
    (hopen : s.OpenForCommand) (hframe : isFrame beats = true) :
    ∃ t, transact c beats s = .next t ∧ t.eng.fsm = .done ∧ t.eng.resValid = true ∧
      t.eng.r = Config.init ∧ t.eng.res = ⟨.rsv, true, false, 0, 0⟩ ∧ t.eng.res.pack = 7 := by
  obtain ⟨e, hrun, hfsm, hvalid, hr, hres⟩ := transact_of_command hop hopen hframe
  rw [Cmd.foldl_update_of_rsv rfl] at hr
  rw [resultOf_rsv] at hres
  refine ⟨_, hrun, hfsm, hvalid, hr, hres, ?_⟩
  rw [State.setEng_eng, hres]
  decide

/-! ### Validation (spec R163, R168) -/

theorem resultOf_val_ok_iff (f rn : Word) : (resultOf .val f rn).ok = true ↔ f = fcsOf (crcOf rn) :=
  beq_iff_eq.trans eq_comm

theorem transact_of_val {c : Instr} {s : State} {beats : List Instr} (hop : commandOp c = some .val)
    (hopen : s.OpenForCommand) (hinv : s.Inv) (hframe : isFrame beats = true) :
    ∃ t, transact c beats s = .next t ∧
      (t.eng.res.ok = true ↔ commandRxfcs c = fcsOf (crcOf (regD (frameOf beats)))) := by
  obtain ⟨t, hrun, hres, -⟩ := resultDependsOnOpFcsAndFrame c .val s beats hop hopen hinv hframe
  refine ⟨t, hrun, ?_⟩
  rw [hres]
  exact resultOf_val_ok_iff _ _

/-- A flipped bit is a difference. -/
theorem xor_one_shiftLeft_ne (w : Word) {k : Nat} (hk : k < 32) : w ^^^ (1#32 <<< k) ≠ w := by
  intro heq
  have hbit := congrArg (·.getLsbD k) heq
  simp [hk] at hbit

theorem regD_hello : regD (frameOf helloBeats) = 0x8CD7CDBA := by
  rw [← regT_eq_regD Table.read_generated, regT_hello Table.read_generated]

end Sys2Proof.Machine

open Sys2Proof Sys2Proof.Machine

/-- Settles O47: the FCS is the register itself, and each of its bytes cancels the register's top byte. -/
theorem residueOfAFrameWithItsFcs : Obligations.ResidueOfAFrameWithItsFcs := by
  intro t d hcomplete
  have hcrc : crcOf 0 = 0xFFFFFFFF := by decide
  simp only [regT_eq_regD hcomplete, regD_append_fcs, hcrc, and_self]

/-- Settles O51: no byte of the frame changes INIT, and the reserved op's result is fixed. -/
theorem reservedTransactions : Obligations.ReservedTransactions :=
  fun _ _ _ hopen hframe => ⟨transact_of_rsv rfl hopen hframe, transact_of_rsv rfl hopen hframe⟩

/-- Settles O53: the result's FCS is the complement of its CRC for every op but the reserved one. -/
theorem complementLaw : Obligations.ComplementLaw := by
  intro c op s t beats hop hrsv hopen hframe hrun
  obtain ⟨e, hrun', -, -, -, hres⟩ := transact_of_command hop hopen hframe
  obtain rfl : t = s.setEng e := Host.Outcome.next.inj (hrun.symm.trans hrun')
  rw [State.setEng_eng, hres, resultOf_fcs hrsv, fcsOf_xor_self]

/-- Settles O54: the verdict is the equality of the received and the calculated FCS, and a flipped bit makes
them differ. -/
theorem validationIsExact : Obligations.ValidationIsExact := by
  intro s beats f hopen hinv hframe
  obtain ⟨t, hrunT, hokT⟩ := transact_of_val (c := .valT f) rfl hopen hinv hframe
  obtain ⟨u, hrunD, hokD⟩ := transact_of_val (c := .valD f) rfl hopen hinv hframe
  refine ⟨⟨t, hrunT, hokT⟩, ⟨u, hrunD, hokD⟩, fun k hk hflip => ?_⟩
  have hne : f ≠ fcsOf (crcOf (regD (frameOf beats))) := hflip ▸ xor_one_shiftLeft_ne _ hk
  exact ⟨⟨t, hrunT, Bool.eq_false_iff.mpr fun hok => hne (hokT.mp hok)⟩,
    ⟨u, hrunD, Bool.eq_false_iff.mpr fun hok => hne (hokD.mp hok)⟩⟩

/-- Settles O32: under the reserved op a byte beat acts as a beat without a byte, and the frame's
end writes the error result. -/
theorem reservedOpTakesEveryBeat : Obligations.ReservedOpTakesEveryBeat := by
  intro s b hopen ho
  have hmiddle : s.offerNoByte false = s := State.offerNoByte_of_open hopen false
  have hlast := State.offerNoByte_last_of_rsv hopen ho
  have hbyte := State.offerByte_of_rsv hopen ho b
  exact ⟨congrArg _ ((hbyte false).trans hmiddle), congrArg _ hmiddle,
    congrArg _ ((hbyte true).trans hlast), congrArg _ hlast⟩

/-- Settles O48: both XORs are with all ones. -/
theorem fcsIsTheFinalRegister : Obligations.FcsIsTheFinalRegister :=
  ⟨fun crc => ⟨rfl, fcsOf_eq_not crc⟩, fcsOf_crcOf⟩

/-- Settles O56: over "HELLO" the register ends as the FCS 0x8CD7CDBA, which is not the received one. -/
theorem corruptionScenario : Obligations.CorruptionScenario := by
  intro s hopen hinv
  have hresult : resultOfFrame .val 0x8CD7CDBB (frameOf helloBeats) =
      ⟨.val, false, false, 0x73283245, 0x8CD7CDBA⟩ := by
    rw [resultOfFrame, regD_hello]
    decide
  have htransact : ∀ c, commandOp c = some .val → commandRxfcs c = 0x8CD7CDBB →
      ∃ t, transact c helloBeats s = .next t ∧
        t.eng.res = ⟨.val, false, false, 0x73283245, 0x8CD7CDBA⟩ := by
    intro c hop hrxfcs
    obtain ⟨t, hrun, hres, -⟩ := resultDependsOnOpFcsAndFrame c .val s helloBeats hop hopen hinv rfl
    exact ⟨t, hrun, by rw [hres, hrxfcs, hresult]⟩
  exact ⟨htransact (.valT 0x8CD7CDBB) rfl rfl, htransact (.valD 0x8CD7CDBB) rfl rfl⟩

end

section
/-! PROOFS. When an edge answers a next state: an instruction always does, an edge does unless the host breaks
a waiting offer outside reset; and what the edge leaves when the engine rests in IDLE. -/

namespace Sys2Proof.Machine

open Sys2Proof

variable {s : State}

/-! ### A broken offer (spec R182, R210) -/

theorem State.cmdBreach_of_broken {w : BitVec 35} (hheld : s.host.heldCmd = some w)
    (hbroken : s.host.pins.cmdValid = false ∨ s.host.pins.cmdWord ≠ w) : s.cmdBreach = true := by
  obtain hdropped | hchanged := hbroken
  · simp [State.cmdBreach, hheld, hdropped]
  · simp [State.cmdBreach, hheld, hchanged]

theorem State.beatBreach_of_broken {w : BitVec 10} (hheld : s.host.heldBeat = some w)
    (hbroken : s.host.pins.inValid = false ∨ s.host.pins.inBeat ≠ w) : s.beatBreach = true := by
  obtain hdropped | hchanged := hbroken
  · simp [State.beatBreach, hheld, hdropped]
  · simp [State.beatBreach, hheld, hchanged]

theorem step_of_cmdBreach (hr : s.host.pins.rst = false) (hc : s.cmdBreach = true) :
    step s = .refused .commandOfferBroken := by
  simp [step, clockEdge, hr, hc]

/-- A breach of the data port is named when the command port is not in breach itself (log 4). -/
theorem step_of_beatBreach (hr : s.host.pins.rst = false) (hc : s.cmdBreach = false)
    (hb : s.beatBreach = true) : step s = .refused .beatOfferBroken := by
  simp [step, clockEdge, hr, hc, hb]

/-! ### The engine at rest (spec R193) -/

/-- With no command offered there is none to accept, whether or not the table is ready. -/
theorem State.nextEngine_of_idle_without_command (hf : s.eng.fsm = .idle)
    (hv : s.host.pins.cmdValid = false) : s.nextEngine = s.eng := by
  obtain ⟨op, hnext⟩ := State.nextEngine_of_idle hf
  have hacc : s.acceptCmd = false := by rw [State.acceptCmd, hv, Bool.false_and]
  rw [hnext, hacc, if_neg Bool.false_ne_true]

end Sys2Proof.Machine

open Sys2Proof Sys2Proof.Machine

/-- Settles O13: every meaning accepts its word or lets it wait, and only a breach outside reset has no step. -/
theorem coreNeverStops : Obligations.CoreNeverStops := by
  refine ⟨fun i s => ⟨_, exec_eq i s⟩, fun s hs => ?_⟩
  obtain hr | ⟨hr, hc, hb⟩ := hs
  · exact ⟨_, step_of_rst hr⟩
  · exact ⟨_, step_of_clean hr hc hb⟩

/-- Settles O14: a dropped or changed offer is a breach of its port, which the edge refuses by name. -/
theorem brokenOffersAreRefused : Obligations.BrokenOffersAreRefused :=
  ⟨fun _ _ hr hheld hbroken => step_of_cmdBreach hr (State.cmdBreach_of_broken hheld hbroken),
    fun _ _ hr hc hheld hbroken => step_of_beatBreach hr hc (State.beatBreach_of_broken hheld hbroken)⟩

/-- Settles O24: with no command offered the engine's next state is its state, and a ready generator rests. -/
theorem idleHoldsEveryRegister : Obligations.IdleHoldsEveryRegister := by
  intro s hclean hf hv
  obtain ⟨hr, hc, hb⟩ := hclean
  exact ⟨_, step_of_clean hr hc hb, State.nextEngine_of_idle_without_command hf hv,
    Gen.edge_of_ready s.draws⟩

end

section
/-! PROOFS. Reset over everything, offers that wait, and commands before their time. -/

namespace Sys2Proof.Machine

open Sys2Proof

variable {s t : State}

/-! ### The host's side after an edge (spec R210) -/

/-- Every step, a reset edge too, advances the host. -/
theorem host_of_step (h : step s = .next t) : t.host = s.hostAdvance := by
  obtain ⟨-, rfl⟩ | ⟨-, -, -, rfl⟩ := step_cases h
  · rfl
  · rfl

/-- A host at the end of its plan carries on (log 2). -/
theorem State.hostAdvance_pins_of_planEnd (hq : s.host.queue = []) :
    s.hostAdvance.pins = s.host.pins.carryOn s.waitingCmd.isSome s.waitingBeat.isSome := by
  simp [State.hostAdvance, hq]

theorem State.waitingCmd_of_closed (hv : s.host.pins.cmdValid = true) (hready : s.cmdReady = false) :
    s.waitingCmd = some s.host.pins.cmdWord := by
  simp [State.waitingCmd, hv, hready]

theorem State.waitingBeat_of_closed (hv : s.host.pins.inValid = true) (hready : s.inReady = false) :
    s.waitingBeat = some s.host.pins.inBeat := by
  simp [State.waitingBeat, hv, hready]

/-! ### Reset and rest -/

/-- A reset edge leaves the engine's and the generator's reset values (spec R200). -/
theorem eq_resetEdge_of_step (hr : s.host.pins.rst = true) (h : step s = .next t) : t = s.resetEdge :=
  Host.Outcome.next.inj (h.symm.trans (step_of_rst hr))

theorem State.acceptRes_of_no_result (h : s.eng.resValid = false) : s.acceptRes = false := by
  simp [State.acceptRes, State.resValidOut, h]

/-- Only a command accept takes the engine out of IDLE (spec R201). -/
theorem State.nextEngine_of_idle_without_accept (hf : s.eng.fsm = .idle) (hacc : s.acceptCmd = false) :
    s.nextEngine = s.eng := by
  obtain ⟨op, hnext⟩ := State.nextEngine_of_idle hf
  rw [hnext, hacc, if_neg Bool.false_ne_true]

theorem State.cmdReady_eq_false
    (h : s.host.pins.rst = true ∨ s.gen.tblReady = false ∨ s.eng.fsm ≠ .idle) : s.cmdReady = false := by
  refine Bool.eq_false_iff.mpr fun hready => ?_
  obtain ⟨hr, htbl, hf⟩ := s.cmdReady_iff.mp hready
  simp [hr, htbl, hf] at h

end Sys2Proof.Machine

open Sys2Proof Sys2Proof.Machine

/-- Settles O15: an offer that waits is owed after every edge, and a host at its plan's end keeps its pins but
for what was accepted. -/
theorem waitingOffersAreKept : Obligations.WaitingOffersAreKept := by
  intro s t hstep
  obtain ⟨hheldCmd, hheldBeat⟩ := held_of_step hstep
  refine ⟨fun hv hready => ?command, fun hv hready => ?beat⟩
  case command =>
    have hwait := State.waitingCmd_of_closed hv hready
    refine ⟨hheldCmd.trans hwait, fun hq => ?_⟩
    rw [host_of_step hstep, State.hostAdvance_pins_of_planEnd hq, hwait]
    exact ⟨rfl, rfl⟩
  case beat =>
    have hwait := State.waitingBeat_of_closed hv hready
    refine ⟨hheldBeat.trans hwait, fun hq => ?_⟩
    rw [host_of_step hstep, State.hostAdvance_pins_of_planEnd hq, hwait]
    exact ⟨rfl, rfl⟩

/-- Settles O57: a reset edge leaves the reset engine; in IDLE, where no result is valid, an edge without a
command accept leaves the engine as it is. -/
theorem resetAbortsTheTransaction : Obligations.ResetAbortsTheTransaction := by
  refine ⟨fun s t hr hstep => ?reset, fun s t hinv hf hacc hstep => ?rest⟩
  case reset =>
    obtain rfl := eq_resetEdge_of_step hr hstep
    exact ⟨rfl, rfl, rfl⟩
  case rest =>
    have hidle : t.eng.fsm = .idle ∧ t.eng.resValid = false := by
      obtain ⟨-, rfl⟩ | ⟨-, -, -, rfl⟩ := step_cases hstep
      · exact ⟨rfl, rfl⟩
      · rw [State.nextEngine_of_idle_without_accept hf hacc]
        exact ⟨hf, by simp [hinv.eng.resValid_eq, hf]⟩
    obtain ⟨hfsm, hvalid⟩ := hidle
    exact ⟨hfsm, hvalid, State.acceptRes_of_no_result hvalid⟩

/-- Settles O9: both edges are reset edges, which set every element from the latency alone, and with `rst = 1`
every handshake and status output is 0. -/
theorem resetEdgeFromAnyState : Obligations.ResetEdgeFromAnyState := by
  intro s hr
  obtain ⟨hcmd, hin, hres, hbusy, htbl⟩ := (outputPortEquations s).2 hr
  have hrom : s.gen.latency = 0 → ∀ i : Byte, s.resetEdge.gen.tbl.read i = tgen i := by
    intro hl
    exact (Gen.reset_ok s.gen.latency s.draws).ready (by simp [Gen.reset, hl])
  refine ⟨⟨_, step_of_rst hr, rfl, rfl, rfl, rfl, hrom, fun t' hr' hstep' => ?held⟩,
    by simp [State.acceptCmd, hcmd], by simp [State.acceptIn, hin], by simp [State.acceptRes, hres],
    hcmd, hin, hres, hbusy, htbl⟩
  case held =>
    obtain rfl := eq_resetEdge_of_step hr' hstep'
    exact ⟨rfl, rfl, rfl, fun hl => by simp [State.resetEdge, Gen.reset, hl]⟩

/-- Settles O28: each reason makes `cmd_ready` 0, and a command that is not accepted waits. -/
theorem commandsWaitUntilReady : Obligations.CommandsWaitUntilReady := by
  intro s f hclosed
  have hready := State.cmdReady_eq_false hclosed
  have hwait : ∀ op ut, s.offerCommand op ut f = s := fun op ut => if_neg (Bool.eq_false_iff.mp hready)
  exact ⟨hready, congrArg _ (hwait .crc true), congrArg _ (hwait .crc false),
    congrArg _ (hwait .fcs true), congrArg _ (hwait .fcs false), congrArg _ (hwait .val true),
    congrArg _ (hwait .val false), congrArg _ (hwait .rsv true), congrArg _ (hwait .rsv false)⟩

end

section
/-! PROOFS. The cycles of a script and its core under the invariant: what a cycle does to the engine while a
transfer statement is first, and stretches of cycles in which no result transfers. -/

namespace Sys2Proof.Machine

open Sys2Proof

/-! ### A run in parts -/

theorem ScriptRun.run_add (a b : Nat) {m m' : ScriptRun} {seen seen' : List (BitVec 68)}
    (h : ScriptRun.run a m seen = .next (m', seen')) :
    ScriptRun.run (a + b) m seen = ScriptRun.run b m' seen' := by
  induction a generalizing m seen with
  | zero => cases h; rw [Nat.zero_add]
  | succ a ih =>
    cases hm : m.cycle with
    | next n =>
      rw [ScriptRun.run_succ a seen hm] at h
      rw [Nat.succ_add, ScriptRun.run_succ (a + b) seen hm, ih h]
    | fault r => simp [ScriptRun.run, hm] at h
    | refused r => simp [ScriptRun.run, hm] at h

/-! ### One cycle of a script under the invariant -/

/-- The script's statements to come and the engine, at a cycle of a script host that owes nothing but what its
first statement drives, over the generator `g`. -/
structure ScriptRun.At (g : Gen) (script : List Stmt) (e : Engine) (m : ScriptRun) : Prop where
  script_eq : m.script = script
  gen_eq : m.core.gen = g
  eng_eq : m.core.eng = e
  inv : m.core.Inv
  faithful : m.Faithful

/-- The statement transfers a word or the result: it is neither WAIT_TBL nor RESET (spec R81). -/
def Stmt.IsTransfer (st : Stmt) : Prop := (∃ i, st.instr = some i) ∨ st = .take

section OneCycle
variable {g : Gen} {st : Stmt} {rest : List Stmt} {e : Engine} {m : ScriptRun} {i : Instr}

theorem Stmt.IsTransfer.settle_eq (h : st.IsTransfer) (ready : Bool) (rest : List Stmt) :
    settle ready (st :: rest) = st :: rest := by
  obtain ⟨i, hi⟩ | rfl := h
  · exact ScriptOffers.settle_eq ⟨st, rest, i, rfl, hi, rfl⟩ ready
  · rfl

theorem Stmt.drive_of_instr (hi : st.instr = some i) (p : Pins) : st.drive p = p.offer (encodeBits i) := by
  simp [Stmt.drive, hi]

theorem Pins.offer_rst (p : Pins) (w : PortBits) : (p.offer w).rst = false := by cases w <;> rfl

theorem Stmt.IsTransfer.drive_rst (h : st.IsTransfer) (p : Pins) : (st.drive p).rst = false := by
  obtain ⟨i, hi⟩ | rfl := h
  · rw [Stmt.drive_of_instr hi, Pins.offer_rst]
  · rfl

theorem ScriptRun.At.driven_eq (h : m.At g (st :: rest) e) (hst : st.IsTransfer) :
    m.driven = m.core.setPins (st.drive m.core.host.pins) := by
  rw [ScriptRun.driven, h.script_eq, hst.settle_eq]
  rfl

theorem ScriptRun.At.driven_rst (h : m.At g (st :: rest) e) (hst : st.IsTransfer) :
    m.driven.host.pins.rst = false := by
  rw [h.driven_eq hst]
  exact hst.drive_rst _

theorem ScriptRun.At.driven_eng (h : m.At g (st :: rest) e) : m.driven.eng = e := h.eng_eq

theorem ScriptRun.At.driven_gen (h : m.At g (st :: rest) e) : m.driven.gen = g := h.gen_eq

theorem ScriptRun.At.driven_inv (h : m.At g (st :: rest) e) : m.driven.Inv :=
  ⟨h.inv.eng, h.inv.gen, h.inv.open_ready⟩

theorem ScriptRun.At.remaining_eq (h : m.At g (st :: rest) e) (hst : st.IsTransfer) :
    m.remaining = if st.completes m.driven then rest else st :: rest := by
  rw [ScriptRun.remaining, h.script_eq, hst.settle_eq]

/-- A cycle under a transfer statement is the engine's action; the ready generator rests. -/
theorem ScriptRun.At.cycle (h : m.At g (st :: rest) e) (hg : g.tblReady = true) (hst : st.IsTransfer) :
    ∃ m', m.cycle = .next m' ∧ m'.At g m.remaining m.driven.nextEngine := by
  obtain ⟨m', hcycle, hfaithful⟩ := scriptHostsAreNeverRefused m h.faithful
  refine ⟨m', hcycle, ?_⟩
  unfold ScriptRun.cycle at hcycle
  split at hcycle
  case h_1 t hstep =>
    obtain rfl := Host.Outcome.next.inj hcycle
    have hinv : t.Inv := stepKeepsTheInvariant _ _ h.driven_inv hstep
    obtain ⟨hr, -⟩ | ⟨-, -, -, rfl⟩ := step_cases hstep
    · exact absurd hr (Bool.eq_false_iff.mp (h.driven_rst hst))
    have hgen : m.driven.gen.edge m.driven.draws = g := by
      rw [h.driven_gen, Gen.edge_of_ready _ hg]
    exact ⟨rfl, hgen, rfl, hinv, hfaithful⟩
  case h_2 => cases hcycle
  case h_3 => cases hcycle

theorem ScriptRun.At.offers (h : m.At g (st :: rest) e) (hi : st.instr = some i) :
    m.driven.Offers (encodeBits i) := by
  have hst : st.IsTransfer := .inl ⟨i, hi⟩
  rw [ScriptRun.driven, h.script_eq, hst.settle_eq, offers_setPins_scriptPins]
  exact ⟨st, rest, i, rfl, hi, rfl⟩

/-- No result transfers outside DONE. -/
theorem ScriptRun.At.observeEdge_eq (h : m.At g (st :: rest) e) (hst : st.IsTransfer) (hf : e.fsm ≠ .done)
    (seen : List (BitVec 68)) : m.driven.observeEdge seen = seen := by
  have hacc : m.driven.acceptRes = false :=
    Bool.eq_false_iff.mpr fun hacc => hf (h.driven_eng ▸ State.fsm_of_acceptRes h.driven_inv hacc)
  simp [State.observeEdge, h.driven_rst hst, hacc]

end OneCycle

/-! ### The engine's action on what the script drives -/

section Action
variable {s : State} {i : Instr} {st : Stmt}

/-- The word accepted is the instruction's own (spec R71, R77, R78). -/
theorem State.nextEngine_of_accepted (hoffers : s.Offers (encodeBits i))
    (hacc : s.acceptsOn (encodeBits i) = true) : s.nextEngine = engineAfter i s := by
  have hdec : decode (encode i) = .ok i := decodeUndoesEncode i
  have hfetch : s.fetch = some i := by
    unfold encode at hdec
    cases hw : encodeBits i with
    | cmd w =>
      rw [hw] at hdec hoffers hacc
      obtain ⟨hv, rfl⟩ := hoffers
      rw [State.fetch_of_idle (State.fsm_of_acceptCmd hacc) hv]
      exact congrArg some (Except.ok.inj ((decode_cmd _).symm.trans hdec))
    | beat w =>
      rw [hw] at hdec hoffers hacc
      obtain ⟨hv, rfl⟩ := hoffers
      rw [State.fetch_of_frame (State.fsm_of_acceptIn hacc) hv]
      exact congrArg some (Except.ok.inj ((decode_beat _).symm.trans hdec))
  simp [State.nextEngine, hfetch]

theorem State.acceptsOn_command {op : Op} (hop : commandOp i = some op) (hoffers : s.Offers (encodeBits i))
    (hopen : s.OpenForCommand) : s.acceptsOn (encodeBits i) = true := by
  have hready := s.cmdReady_iff.mpr hopen
  cases i <;> cases hop <;> exact Bool.and_eq_true_iff.mpr ⟨hoffers.1, hready⟩

theorem State.acceptsOn_beat (hbeat : commandOp i = none) (hoffers : s.Offers (encodeBits i))
    (hopen : s.OpenForBeat) : s.acceptsOn (encodeBits i) = true := by
  have hready := s.inReady_iff.mpr hopen
  cases i <;> cases hbeat <;> exact Bool.and_eq_true_iff.mpr ⟨hoffers.1, hready⟩

/-- In SHIFT every channel is closed (spec R32). -/
theorem Stmt.completes_of_shift (hst : st.IsTransfer) (hinv : s.Inv) (hf : s.eng.fsm = .shift) :
    st.completes s = false := by
  have hclosed : ∀ {p : Bool} {f : Fsm}, (p = true → s.eng.fsm = f) → f ≠ .shift → p = false :=
    fun hp hne => Bool.eq_false_iff.mpr fun h => hne ((hp h).symm.trans hf)
  obtain ⟨i, hi⟩ | rfl := hst
  · rw [Stmt.completes_of_instr hi]
    cases encodeBits i with
    | cmd w => exact hclosed State.fsm_of_acceptCmd (by decide)
    | beat w => exact hclosed State.fsm_of_acceptIn (by decide)
  · exact hclosed (State.fsm_of_acceptRes hinv) (by decide)

end Action

/-! ### Stretches of cycles with no result transferred -/

/-- `k` cycles over the ready generator `g` lead from one script position and engine to another, and no result
transfers in them. -/
def Leads (g : Gen) (k : Nat) (script : List Stmt) (e : Engine) (script' : List Stmt) (e' : Engine) : Prop :=
  ∀ (m : ScriptRun) (seen : List (BitVec 68)), m.At g script e →
    ∃ m', ScriptRun.run k m seen = .next (m', seen) ∧ m'.At g script' e'

section Stretches
variable {g : Gen} {st : Stmt} {rest script script' script'' : List Stmt} {e e' e'' : Engine}

theorem Leads.refl (g : Gen) (script : List Stmt) (e : Engine) : Leads g 0 script e script e :=
  fun m _ h => ⟨m, rfl, h⟩

theorem Leads.trans {a b : Nat} (h : Leads g a script e script' e') (h' : Leads g b script' e' script'' e'') :
    Leads g (a + b) script e script'' e'' := by
  intro m seen hm
  obtain ⟨m', hrun, hm'⟩ := h m seen hm
  obtain ⟨m'', hrun', hm''⟩ := h' m' seen hm'
  exact ⟨m'', (ScriptRun.run_add a b hrun).trans hrun', hm''⟩

/-- A cycle whose word is accepted is the instruction's. -/
theorem ScriptRun.At.accept {m : ScriptRun} {i : Instr} (h : m.At g (st :: rest) e) (hg : g.tblReady = true)
    (hi : st.instr = some i) (hf : e.fsm ≠ .done) (hacc : m.driven.acceptsOn (encodeBits i) = true)
    (seen : List (BitVec 68)) :
    ∃ m', ScriptRun.run 1 m seen = .next (m', seen) ∧ m'.At g rest (engineAfter i m.driven) := by
  have hst : st.IsTransfer := .inl ⟨i, hi⟩
  obtain ⟨m', hcycle, hm'⟩ := h.cycle hg hst
  rw [h.remaining_eq hst, Stmt.completes_of_instr hi, if_pos hacc,
    State.nextEngine_of_accepted (h.offers hi) hacc] at hm'
  refine ⟨m', ?_, hm'⟩
  rw [ScriptRun.run_succ 0 seen hcycle, h.observeEdge_eq hst hf]
  rfl

/-- In SHIFT the script waits. -/
theorem leads_shiftStep (hg : g.tblReady = true) (hst : st.IsTransfer) (hf : e.fsm = .shift) :
    Leads g 1 (st :: rest) e (st :: rest) e.shiftStep := by
  intro m seen h
  have hshift : m.driven.eng.fsm = .shift := h.driven_eng ▸ hf
  obtain ⟨m', hcycle, hm'⟩ := h.cycle hg hst
  rw [h.remaining_eq hst, Stmt.completes_of_shift hst h.driven_inv hshift,
    State.nextEngine_of_shift hshift, h.driven_eng] at hm'
  refine ⟨m', ?_, hm'⟩
  rw [ScriptRun.run_succ 0 seen hcycle, h.observeEdge_eq hst (by simp [hf])]
  rfl

theorem leads_drain (hg : g.tblReady = true) (hst : st.IsTransfer) {n : Nat}
    (hf : ∀ k < n, (e.drain k).fsm = .shift) : Leads g n (st :: rest) e (st :: rest) (e.drain n) := by
  induction n with
  | zero => exact Leads.refl _ _ _
  | succ n ih =>
    have hshift : (e.drain n).fsm = .shift := hf n n.lt_succ_self
    rw [Engine.drain_add n 1, Engine.drain_succ_of_shift 0 hshift]
    exact (ih fun k hk => hf k (Nat.lt_succ_of_lt hk)).trans (leads_shiftStep hg hst hshift)

/-- A byte's accept cycle on the direct path is followed by seven shift cycles (spec R125, R126). -/
theorem leads_drain_directByte (hg : g.tblReady = true) (hst : st.IsTransfer) (b : Byte) (l : Bool) :
    Leads g 7 (st :: rest) (e.directByte b l) (st :: rest) ((e.directByte b l).drain 7) :=
  leads_drain hg hst fun _ hk => by rw [Engine.drain_directByte_of_lt e b l hk]; rfl

/-- A command is accepted in IDLE in one cycle (spec R120). -/
theorem leads_command {c : Instr} {op : Op} (hg : g.tblReady = true) (hc : st.instr = some c)
    (hop : commandOp c = some op) (hf : e.fsm = .idle) :
    Leads g 1 (st :: rest) e rest (e.accept op (isTableCommand c) (commandRxfcs c)) := by
  intro m seen h
  have hopen : m.driven.OpenForCommand :=
    ⟨h.driven_rst (.inl ⟨c, hc⟩), h.driven_gen ▸ hg, h.driven_eng ▸ hf⟩
  have hacc := State.acceptsOn_command hop (h.offers hc) hopen
  have hnext := h.accept hg hc (by simp [hf]) hacc seen
  rwa [engineAfter_of_command hop, State.offerCommand_of_open hopen, State.setEng_eng,
    h.driven_eng] at hnext

end Stretches

end Sys2Proof.Machine

end

section
/-! PROOFS. The timing of whole transactions: the cycles of a beat and of a frame under the latched command, the
result's transfer, and the transaction of every command. -/

namespace Sys2Proof.Machine

open Sys2Proof

/-! ### The cycles of a frame (spec R213) -/

section Beats
variable {g : Gen} {st st' : Stmt} {rest : List Stmt} {e : Engine} {i : Instr} {b : Byte}

/-- The accept cycle of a beat with a byte (spec R128, R129). -/
theorem leads_takeByte (hg : g.tblReady = true) (hi : st.instr = some i) (hb : beatByte i = [b])
    (hf : e.fsm = .frame) : Leads g 1 (st :: rest) e rest (e.takeByte g.tbl b (isFinalBeat i)) := by
  intro m seen h
  have hopen : m.driven.OpenForBeat := ⟨h.driven_rst (.inl ⟨i, hi⟩), h.driven_eng ▸ hf⟩
  have hbeat : commandOp i = none := by cases i <;> cases hb <;> rfl
  have hafter : engineAfter i m.driven = (m.driven.offerByte b (isFinalBeat i)).eng := by
    cases i <;> cases hb <;> rfl
  have hacc := State.acceptsOn_beat hbeat (h.offers hi) hopen
  have hnext := h.accept hg hi (by simp [hf]) hacc seen
  rwa [hafter, State.offerByte_of_open hopen, State.setEng_eng, h.driven_eng, h.driven_gen] at hnext

/-- The one cycle of a beat without a byte (spec R130, R131). -/
theorem leads_takeNoByte (hg : g.tblReady = true) (hi : st.instr = some i) (hbeat : commandOp i = none)
    (hb : beatByte i = []) (hf : e.fsm = .frame) :
    Leads g 1 (st :: rest) e rest (e.takeNoByte (isFinalBeat i)) := by
  intro m seen h
  have hopen : m.driven.OpenForBeat := ⟨h.driven_rst (.inl ⟨i, hi⟩), h.driven_eng ▸ hf⟩
  have hafter : engineAfter i m.driven = (m.driven.offerNoByte (isFinalBeat i)).eng := by
    cases i <;> cases hbeat <;> cases hb <;> rfl
  have hacc := State.acceptsOn_beat hbeat (h.offers hi) hopen
  have hnext := h.accept hg hi (by simp [hf]) hacc seen
  rwa [hafter, State.offerNoByte_of_open hopen, State.setEng_eng, h.driven_eng] at hnext

/-- The cycles a byte takes under the latched command (spec R9, log 12). -/
def Cmd.byteCycles (c : Cmd) : Nat :=
  if c.ut = true ∨ c.op = .rsv then Config.tableCyclesPerByte else Config.serialCyclesPerByte

/-- A byte and the shift cycles that follow it, on every path. -/
theorem leads_byteDone (hg : g.tblReady = true) (hi : st.instr = some i) (hb : beatByte i = [b])
    (hst' : st'.IsTransfer) (hf : e.fsm = .frame) :
    Leads g e.cmd.byteCycles (st :: st' :: rest) e (st' :: rest)
      ((e.byteDone g.tbl b).takeNoByte (isFinalBeat i)) := by
  have haccept : Leads g 1 (st :: st' :: rest) e (st' :: rest) (e.takeByte g.tbl b (isFinalBeat i)) :=
    leads_takeByte hg hi hb hf
  rw [← Engine.drain_takeByte g.tbl b _ hf]
  unfold Cmd.byteCycles
  split
  case isTrue hpath =>
    have hshift : (e.takeByte g.tbl b (isFinalBeat i)).fsm ≠ .shift := by
      rw [Engine.takeByte_fsm_of_table_or_rsv _ _ _ _ hpath, hf]
      split <;> decide
    rwa [Engine.drain_of_ne_shift 7 hshift]
  case isFalse hpath =>
    obtain ⟨hu, ho⟩ := not_or.mp hpath
    rw [Engine.takeByte_of_direct _ _ _ _ (Bool.eq_false_iff.mpr hu) ho] at haccept ⊢
    exact haccept.trans (leads_drain_directByte hg hst' b _)

/-- The cycles the beats of a frame take under the latched command (spec R213, log 12). -/
def Cmd.frameCycles (c : Cmd) (beats : List Instr) : Nat :=
  c.byteCycles * (frameOf beats).length + emptyBeats beats

theorem frameOf_cons (i : Instr) (beats : List Instr) : frameOf (i :: beats) = beatByte i ++ frameOf beats := rfl

theorem emptyBeats_cons (i : Instr) (beats : List Instr) :
    emptyBeats (i :: beats) = emptyBeats [i] + emptyBeats beats := by
  simp [emptyBeats, List.countP_cons, Nat.add_comm]

theorem Cmd.frameCycles_cons (c : Cmd) (i : Instr) (beats : List Instr) :
    c.frameCycles (i :: beats) = c.frameCycles [i] + c.frameCycles beats := by
  have hbyte : frameOf [i] = beatByte i := List.append_nil _
  simp only [frameCycles, hbyte, frameOf_cons i beats, emptyBeats_cons i beats, List.length_append, Nat.mul_add]
  omega

/-- A beat carries one byte or none. -/
theorem beatByte_cases (i : Instr) : (∃ b, beatByte i = [b]) ∨ beatByte i = [] := by
  cases i <;> simp [beatByte]

theorem leads_beat (hg : g.tblReady = true) (hi : st.instr = some i) (hbeat : commandOp i = none)
    (hst' : st'.IsTransfer) (hf : e.fsm = .frame) :
    Leads g (e.cmd.frameCycles [i]) (st :: st' :: rest) e (st' :: rest)
      (((beatByte i).foldl (Engine.byteDone g.tbl) e).takeNoByte (isFinalBeat i)) := by
  obtain ⟨b, hb⟩ | hb := beatByte_cases i
  · have hcycles : e.cmd.frameCycles [i] = e.cmd.byteCycles := by
      simp [Cmd.frameCycles, frameOf, emptyBeats, hb]
    rw [hcycles, hb]
    exact leads_byteDone hg hi hb hst' hf
  · have hcycles : e.cmd.frameCycles [i] = 1 := by simp [Cmd.frameCycles, frameOf, emptyBeats, hb]
    rw [hcycles, hb]
    exact leads_takeNoByte hg hi hbeat hb hf

end Beats

/-- The beats of a whole frame lead to DONE with the result of its bytes (spec R122, R132). -/
theorem leads_frame {g : Gen} (hg : g.tblReady = true) (beats : List Instr) {stmts : List Stmt} {e : Engine}
    (hstmts : stmts.map Stmt.instr = beats.map some) (hframe : isFrame beats = true) (hf : e.fsm = .frame) :
    Leads g (e.cmd.frameCycles beats) (stmts ++ [.take]) e [.take]
      (((frameOf beats).foldl (Engine.byteDone g.tbl) e).takeNoByte true) := by
  induction beats generalizing stmts e with
  | nil => cases hframe
  | cons i beats ih =>
    obtain ⟨st, stmts, rfl, hi, hrest⟩ := List.map_eq_cons_iff.mp hstmts
    cases beats with
    | nil =>
      obtain rfl := List.map_eq_nil_iff.mp hrest
      have hfinal : isFinalBeat i = true := hframe
      have hbeat : commandOp i = none := by cases i <;> cases hfinal <;> rfl
      have hlead := leads_beat (rest := []) hg hi hbeat (.inr rfl : Stmt.take.IsTransfer) hf
      rw [hfinal] at hlead
      simpa [frameOf] using hlead
    | cons j beats =>
      obtain ⟨hmiddle, hframe'⟩ := Bool.and_eq_true_iff.mp hframe
      have hbeat : commandOp i = none := by cases i <;> cases hmiddle <;> rfl
      have hgoes : isFinalBeat i = false := by cases i <;> cases hmiddle <;> rfl
      obtain ⟨st', stmts', rfl, hj, -⟩ := List.map_eq_cons_iff.mp hrest
      have hlead := leads_beat (rest := stmts' ++ [.take]) hg hi hbeat (.inl ⟨j, hj⟩) hf
      obtain ⟨hf', hcmd, -, -⟩ := Engine.foldl_byteDone g.tbl (beatByte i) hf
      rw [hgoes] at hlead
      rw [Cmd.frameCycles_cons, frameOf_cons, List.foldl_append]
      have hbeats := ih hrest hframe' hf'
      rw [hcmd] at hbeats
      exact hlead.trans hbeats

/-! ### The result's transfer, and the whole transaction -/

/-- In DONE the script takes the result in one cycle (spec R133). -/
theorem ScriptRun.At.take {g : Gen} {e : Engine} {m : ScriptRun} (h : m.At g [.take] e)
    (hg : g.tblReady = true) (hf : e.fsm = .done) (seen : List (BitVec 68)) :
    ∃ m', ScriptRun.run 1 m seen = .next (m', seen ++ [e.res.pack]) ∧ m'.At g [] e.takeResult := by
  have hst : Stmt.take.IsTransfer := .inr rfl
  have hdone : m.driven.eng.fsm = .done := h.driven_eng ▸ hf
  have hrst := h.driven_rst hst
  have hready : m.driven.host.pins.resReady = true := by rw [h.driven_eq hst]; rfl
  have hvalid : m.driven.eng.resValid = true := by simp [h.driven_inv.eng.resValid_eq, hdone]
  have hacc : m.driven.acceptRes = true := by simp [State.acceptRes, State.resValidOut, hrst, hvalid, hready]
  have hseen : m.driven.observeEdge seen = seen ++ [e.res.pack] := by
    simp [State.observeEdge, State.resWord, hrst, hacc, h.driven_eng]
  have htaken : Stmt.take.completes m.driven = true := hacc
  obtain ⟨m', hcycle, hm'⟩ := h.cycle hg hst
  rw [h.remaining_eq hst, if_pos htaken, State.nextEngine_of_done hdone, if_pos hready, h.driven_eng] at hm'
  refine ⟨m', ?_, hm'⟩
  rw [ScriptRun.run_succ 0 seen hcycle, hseen]
  rfl

/-- Over a complete table a frame's result is that of the direct arithmetic, whatever the strategy (spec R138). -/
theorem resultOf_foldl_update {t : Table} (h : t.Complete) (c : Cmd) (f : Word) (d : List Byte) :
    resultOf c.op f (d.foldl (c.update t) Config.init) = resultOfFrame c.op f d := by
  by_cases hrsv : c.op = .rsv
  · rw [hrsv]
    rfl
  · rw [Cmd.update_of_complete h hrsv]
    rfl

/-- The result of an accepted command after the bytes of its frame and its end (spec R132, R138). -/
theorem Engine.accept_frame_res {t : Table} (h : t.Complete) (e : Engine) (op : Op) (ut : Bool) (f : Word)
    (d : List Byte) :
    ((d.foldl (byteDone t) (e.accept op ut f)).takeNoByte true).res = resultOfFrame op f d := by
  obtain ⟨-, hcmd, hrxfcs, hr⟩ := foldl_byteDone t d (accept_fsm e op ut f)
  change resultOf _ _ _ = _
  rw [hcmd, hrxfcs, hr]
  exact resultOf_foldl_update h ⟨op, ut⟩ f d

/-- A script's transaction, for every command and frame: one cycle for the command, those of the frame, and
one for the result, whose word is the frame's and is seen only then (spec R213, log 12). -/
theorem transaction_timing {st : Stmt} {c : Instr} {op : Op} {stmts : List Stmt} {beats : List Instr}
    {s : State} (hc : st.instr = some c) (hop : commandOp c = some op)
    (hstmts : stmts.map Stmt.instr = beats.map some) (hframe : isFrame beats = true) (hinv : s.Inv)
    (hready : s.gen.tblReady = true) (hf : s.eng.fsm = .idle) (hheldCmd : s.host.heldCmd = none)
    (hheldBeat : s.host.heldBeat = none) (seen : List (BitVec 68)) :
    (∃ t, ScriptRun.run (Cmd.frameCycles ⟨op, isTableCommand c⟩ beats + 1)
      ⟨st :: (stmts ++ [.take]), s⟩ seen = .next (⟨[.take], t⟩, seen) ∧ t.eng.fsm = .done) ∧
    (∃ t, ScriptRun.run (Cmd.frameCycles ⟨op, isTableCommand c⟩ beats + 2)
      ⟨st :: (stmts ++ [.take]), s⟩ seen =
        .next (⟨[], t⟩, seen ++ [(resultOfFrame op (commandRxfcs c) (frameOf beats)).pack]) ∧
      t.eng.fsm = .idle) := by
  have hstart : ScriptRun.At s.gen (st :: (stmts ++ [.take])) s.eng ⟨st :: (stmts ++ [.take]), s⟩ :=
    ⟨rfl, rfl, rfl, hinv, by simp [hheldCmd], by simp [hheldBeat]⟩
  have hlead := (leads_command hready hc hop hf).trans
    (leads_frame hready beats hstmts hframe (Engine.accept_fsm _ _ _ _))
  rw [Nat.add_comm] at hlead
  obtain ⟨⟨_, t⟩, hrun, hdone⟩ := hlead _ seen hstart
  obtain ⟨⟨_, t'⟩, htake, hend⟩ := hdone.take hready rfl seen
  obtain rfl := hdone.script_eq
  obtain rfl := hend.script_eq
  rw [Engine.accept_frame_res (hinv.gen.ready hready)] at htake
  exact ⟨⟨t, hrun, congrArg Engine.fsm hdone.eng_eq⟩,
    ⟨t', (ScriptRun.run_add _ 1 hrun).trans htake, congrArg Engine.fsm hend.eng_eq⟩⟩

/-- Every beat carries a byte or is counted as one without. -/
theorem length_frameOf_add_emptyBeats (beats : List Instr) :
    (frameOf beats).length + emptyBeats beats = beats.length := by
  induction beats with
  | nil => rfl
  | cons i beats ih =>
    have hone : (beatByte i).length + emptyBeats [i] = 1 := by
      obtain ⟨b, hb⟩ | hb := beatByte_cases i <;> simp [emptyBeats, hb]
    rw [frameOf_cons, emptyBeats_cons, List.length_append, List.length_cons]
    omega

/-- On the table path and under the reserved op every beat takes one cycle. -/
theorem Cmd.frameCycles_of_table_or_rsv {c : Cmd} (h : c.ut = true ∨ c.op = .rsv) (beats : List Instr) :
    c.frameCycles beats = beats.length := by
  have hbyte : c.byteCycles = 1 := if_pos h
  rw [frameCycles, hbyte, Nat.one_mul, length_frameOf_add_emptyBeats]

/-- On the direct path a byte takes eight cycles. -/
theorem Cmd.frameCycles_of_direct {c : Cmd} (hu : c.ut = false) (ho : c.op ≠ .rsv) (beats : List Instr) :
    c.frameCycles beats = 8 * (frameOf beats).length + emptyBeats beats := by
  have hbyte : c.byteCycles = 8 := if_neg (by simp [hu, ho])
  rw [frameCycles, hbyte]

end Sys2Proof.Machine

open Sys2Proof Sys2Proof.Machine

/-- Settles O59: every beat takes one cycle. -/
theorem tableTransactionTiming : Obligations.TableTransactionTiming := by
  intro st c op stmts beats s seen hc hop hpath hstmts hframe hinv hready hf hheldCmd hheldBeat
  rw [← Cmd.frameCycles_of_table_or_rsv (c := ⟨op, isTableCommand c⟩) hpath]
  exact transaction_timing hc hop hstmts hframe hinv hready hf hheldCmd hheldBeat seen

/-- Settles O60: a byte takes eight cycles, and a beat without one takes one. -/
theorem directTransactionTiming : Obligations.DirectTransactionTiming := by
  intro st c op stmts beats s seen hc hop hu ho hstmts hframe hinv hready hf hheldCmd hheldBeat
  rw [← Cmd.frameCycles_of_direct (c := ⟨op, isTableCommand c⟩) hu ho]
  exact transaction_timing hc hop hstmts hframe hinv hready hf hheldCmd hheldBeat seen

end

section
/-! PROOFS. Numbers too wide for their port, and the values the spec leaves open. -/

namespace Sys2Proof

/-- A number is no word of its port exactly if it has a bit beyond the port's width (spec R80). -/
theorem PortWord.wellFormed_eq_false_iff (p : PortWord) :
    p.wellFormed = false ↔ 2 ^ p.channel.width ≤ p.bits :=
  decide_eq_false_iff_not.trans Nat.not_lt

theorem decode_cmd_of_wide {n : Nat} (hwide : (PortWord.mk .cmd n).wellFormed = false) :
    decode ⟨.cmd, n⟩ = .error .widerThanCommandWord := by
  simp [decode, hwide]

theorem decode_data_of_wide {n : Nat} (hwide : (PortWord.mk .data n).wellFormed = false) :
    decode ⟨.data, n⟩ = .error .widerThanBeat := by
  simp [decode, hwide]

end Sys2Proof

namespace Sys2Proof.Machine

open Sys2Proof

/-! ### The table before it is ready (spec R31; log 7) -/

theorem Gen.read_reset_of_generating {latency : Nat} (hl : latency ≠ 0) (draw : Nat) (i : Byte) :
    (Gen.reset latency draw).tbl.read i = Config.freeTblEntry draw i := by
  simp [Gen.reset, hl]

/-- An edge that leaves the table not ready has not written the last entry, so it draws every entry anew. -/
theorem Gen.read_edge_of_not_ready {g : Gen} {draw : Nat} (hnot : (g.edge draw).tblReady = false)
    (i : Byte) : (g.edge draw).tbl.read i = Config.freeTblEntry draw i := by
  have hbusy : g.tblReady = false := by
    refine Bool.eq_false_iff.mpr fun hready => ?_
    rw [Gen.edge_of_ready draw hready, hready] at hnot
    exact Bool.noConfusion hnot
  obtain ⟨-, htbl, -, hready, -⟩ := Gen.edge_of_busy draw hbusy
  have hmore : g.nextIndex ≠ 256 := beq_eq_false_iff_ne.mp (hready.symm.trans hnot)
  rw [htbl, if_neg hmore, Table.read_free]

/-! ### The two data outputs (spec R107, R200; logs 8 and 9) -/

variable {s t : State}

theorem State.tblReadyOut_eq_false (h : s.host.pins.rst = true ∨ s.gen.tblReady = false) :
    s.tblReadyOut = false := by
  obtain hr | hnot := h
  · simp [State.tblReadyOut, hr]
  · simp [State.tblReadyOut, hnot]

theorem State.tblRdData_of_not_readyOut (h : s.tblReadyOut = false) :
    s.tblRdData = Config.freeTblRdData s.draws s.host.pins.tblRdAddr := by
  simp [State.tblRdData, h]

theorem State.resWord_of_rst (hr : s.host.pins.rst = true) : s.resWord = Config.freeResWord s.draws :=
  if_pos hr

/-- Every step, a reset edge too, takes a fresh draw. -/
theorem draws_of_step (h : step s = .next t) : t.draws = s.draws + 1 := by
  obtain ⟨-, rfl⟩ | ⟨-, -, -, rfl⟩ := step_cases h
  · rfl
  · rfl

end Sys2Proof.Machine

open Sys2Proof Sys2Proof.Machine

/-- Settles O4: a number of `2 ^ width` or more is not well formed, and the decoder names its port. -/
theorem tooWideWordsAreRejected : Obligations.TooWideWordsAreRejected := fun n =>
  ⟨fun hn => decode_cmd_of_wide ((PortWord.wellFormed_eq_false_iff ⟨.cmd, n⟩).mpr hn),
    fun hn => decode_data_of_wide ((PortWord.wellFormed_eq_false_iff ⟨.data, n⟩).mpr hn)⟩

/-- Settles O10: the table is open after a reset edge of a realisation that generates it and after every
generator's edge that does not complete it; the two data outputs and the draw count follow their equations. -/
theorem unspecifiedValuesAreFreeDraws : Obligations.UnspecifiedValuesAreFreeDraws := by
  refine ⟨fun latency draw i hl => Gen.read_reset_of_generating hl draw i,
    fun s t hr hl hstep i => ?resetEdge, fun s t hr hstep hnot i => ?generatorEdge,
    fun s h => State.tblRdData_of_not_readyOut (State.tblReadyOut_eq_false h),
    fun s => State.resWord_of_rst, fun s t => draws_of_step⟩
  case resetEdge =>
    obtain rfl := eq_resetEdge_of_step hr hstep
    exact Gen.read_reset_of_generating hl s.draws i
  case generatorEdge =>
    obtain ⟨-, -, hedge, -⟩ := referenceGeneratorWritesOneEntry
    have hgen : t.gen = s.gen.edge s.draws := hedge s t hr hstep
    rw [hgen] at hnot ⊢
    exact Gen.read_edge_of_not_ready hnot i

end
